-- ==== Sys2Proof/Word.lean ====
section
/-! DEFINITION. The one word type of the machine: data, addresses and opcodes are all 8 bits wide
(00_scope.md R6, R11; 20_memory.md R58). -/

namespace Sys2Proof

/-- A byte: an 8-bit unsigned value. Bit 7 is the most significant (R11). -/
abbrev Byte := BitVec 8

end Sys2Proof
end

