-- ==== Sys2Proof/Config.lean ====
section
/-! DEFINITION. What one build of the hardware fixes: the addressing policies, the offset base, the
SUB constant, and what a cell nothing has written reads as. -/

namespace Sys2Proof

/-- The two addressing policies of 00_scope.md R7. Port coding (R34): 0 is direct, 1 is offset. -/
inductive AddrMode where
  | direct
  | offset
deriving DecidableEq, Repr

/-- `OFFSET_BASE` = 128 (R8): a constant of the hardware. -/
def Config.offsetBase : Byte := 0x80

/-- `SUB_IMPLEMENTED` (R9, DEDUCED from decision D1 and conflict C1; log entry 4): true for this hardware. -/
def Config.subImplemented : Bool := true

/-- What a memory cell that nothing has written since reset reads as: reset zeroes memory (R32). -/
def Config.unlistedByte : Byte := 0x00

/-- DESIGN CHOICE, unsafe (log entry 2): the policy on the input `addr_mode` at the release of reset
in the one state `State.reset`. The spec leaves it open (R7, D5); no statement rests on it. -/
def Config.addrModeAtReset : AddrMode := .direct

end Sys2Proof
end

