-- ==== Sys2Proof/Syntax.lean ====
section
/-! DEFINITION. The instructions: one constructor per row of spec/opcode_table.json. -/

namespace Sys2Proof

/-- The ten classes the decoder is total onto (40_instruction_cycle.md R104): the nine instructions
of 30_encoding.md R85 and the unknown opcodes of R86. An operand is byte 1, taken whole (R84). -/
inductive Instr where
  /-- LDA, load accumulator (R121). -/
  | lda (operand : Byte)
  /-- STA, store accumulator (R122). -/
  | sta (operand : Byte)
  /-- LDB, load B register (R123). -/
  | ldb (operand : Byte)
  /-- STB, store B register (R124). -/
  | stb (operand : Byte)
  /-- ADD, add B to accumulator (R147). -/
  | add
  /-- SUB, subtract B from accumulator (R148). -/
  | sub
  /-- JMP, unconditional jump (R161). -/
  | jmp (operand : Byte)
  /-- JZ, jump if zero flag set (R162). -/
  | jz (operand : Byte)
  /-- HLT, halt (R181). -/
  | hlt
  /-- The catch-all row: an opcode byte that selects no instruction (R86, R182). -/
  | unknown (opcode : Byte)
deriving DecidableEq, Repr

end Sys2Proof
end

