-- ==== Sys2Proof/WellFormed.lean ====
section
/-! DEFINITION. Which terms of `Instr` stand for words of the hardware. -/

namespace Sys2Proof

/-- The opcode bytes that select an instruction: "{0x01..0x08, 0xFF}" (30_encoding.md R85, R86). -/
def definedOpcodes : List Byte :=
  [0x01, 0x02, 0x03, 0x04, 0x05, 0x06, 0x07, 0x08, 0xFF]

/-- Every operand byte is legal (R87); the catch-all row holds only opcodes outside the defined
set (R86). -/
def Instr.wellFormed : Instr → Bool
  | .lda _ | .sta _ | .ldb _ | .stb _ | .add | .sub | .jmp _ | .jz _ | .hlt => true
  | .unknown opcode => !definedOpcodes.contains opcode

end Sys2Proof
end

