-- ==== Sys2Proof/Decode.lean ====
section
/-! DEFINITION. The decoder (total on every pair of fetched bytes, and on any list of bytes with
named rejections), then the encoder, both written from the tables of 30_encoding.md. -/

namespace Sys2Proof

/-- Decode under a value of `SUB_IMPLEMENTED` (R9): a total function of the opcode byte alone onto
ten classes (R104), all 8 bits compared (R83), the operand taken whole (R84). -/
def decodeIn (subImplemented : Bool) (opcode operand : Byte) : Instr :=
  match opcode with
  | 0x01#8 => .lda operand
  | 0x02#8 => .sta operand
  | 0x03#8 => .ldb operand
  | 0x04#8 => .stb operand
  | 0x05#8 => .add
  | 0x06#8 => if subImplemented then .sub else .unknown 0x06#8
  | 0x07#8 => .jmp operand
  | 0x08#8 => .jz operand
  | 0xFF#8 => .hlt
  | _ => .unknown opcode

/-- The decoder of this hardware, on the two bytes every step fetches (R102, R103). It reads no
state and no mode (R88). -/
def decodeFetched (opcode operand : Byte) : Instr :=
  decodeIn Config.subImplemented opcode operand

/-- Why a list of bytes holds no whole instruction. The machine itself always fetches two bytes
(R103), so no step meets either. -/
inductive DecodeError where
  /-- The list is empty. -/
  | noOpcode
  /-- The opcode's format is F2 (R82) and the list ends after byte 0. -/
  | noOperand
deriving DecidableEq, Repr

/-- Length in bytes of a term's encoding: format F1 is one byte, F2 two (R80 to R82, R85). The
catch-all row has no width of its own (R182); its one byte is the opcode. -/
def Instr.byteCount : Instr → Nat
  | .lda _ | .sta _ | .ldb _ | .stb _ | .jmp _ | .jz _ => 2
  | .add | .sub | .hlt | .unknown _ => 1

/-- Read one instruction from a list of bytes and give the rest of the list. The length is known
from byte 0 (R83). -/
def decode : List Byte → Except DecodeError (Instr × List Byte)
  | [] => .error .noOpcode
  | [opcode] =>
    if (decodeFetched opcode 0x00).byteCount = 1 then .ok (decodeFetched opcode 0x00, [])
    else .error .noOperand
  | opcode :: operand :: rest =>
    if (decodeFetched opcode operand).byteCount = 1 then
      .ok (decodeFetched opcode operand, operand :: rest)
    else .ok (decodeFetched opcode operand, rest)

/-- The opcode byte of each instruction (30_encoding.md R85, column "opcode byte"). -/
def Instr.opcode : Instr → Byte
  | .lda _ => 0x01
  | .sta _ => 0x02
  | .ldb _ => 0x03
  | .stb _ => 0x04
  | .add => 0x05
  | .sub => 0x06
  | .jmp _ => 0x07
  | .jz _ => 0x08
  | .hlt => 0xFF
  | .unknown opcode => opcode

/-- The encoding: byte 0 the opcode, byte 1 the operand of format F2 (R81, R82). -/
def encode : Instr → List Byte
  | .lda operand => [0x01, operand]
  | .sta operand => [0x02, operand]
  | .ldb operand => [0x03, operand]
  | .stb operand => [0x04, operand]
  | .add => [0x05]
  | .sub => [0x06]
  | .jmp operand => [0x07, operand]
  | .jz operand => [0x08, operand]
  | .hlt => [0xFF]
  | .unknown opcode => [opcode]

/-- Byte `k` of an instruction whose `nbits` bits are `w`, numbered as spec/opcode_table.json
numbers them: bit 0 is the least significant bit of byte 0. Bits above `nbits` are 0. -/
def tableByte (nbits w k : Nat) : Byte :=
  BitVec.ofNat 8 ((w % 2 ^ nbits) / 256 ^ k)

/-- The instruction `decode` reads from such a word, laid out as the hardware stores it, byte 0
at the lower address (R56). -/
def decodeTableWord (nbits w : Nat) : Option Instr :=
  match decode [tableByte nbits w 0, tableByte nbits w 1] with
  | .ok (i, _) => some i
  | .error _ => none

end Sys2Proof
end

