-- ==== Sys2Proof/Machine/State.lean ====
section
/-! DEFINITION. The machine's state (10_state.md R31 and the latched policy of R28), why a step
could stop, and the state right after reset (R32). -/

namespace Sys2Proof.Machine

open Sys2Proof

/-- Memory `M` (R20) as its listed cells. Canonical form: `Memory.wf` in Machine/Ops.lean. -/
abbrev Memory := List Host.Cell

/-- The complete state: the tuple `(M, A, B, PC, Z, RUN, SP)` of R31, and the addressing policy the
core latched at the release of reset (R28, D6; DEDUCED, log entry 1). The reserved stack storage is not
instantiated (R27). -/
structure State where
  /-- `M`: 256 cells of 8 bits; a cell not listed reads `Config.unlistedByte`. -/
  mem : Memory
  /-- `A`, the accumulator (R21). -/
  a : Byte
  /-- `B`, the B register (R22). -/
  b : Byte
  /-- `PC`, the program counter (R23). -/
  pc : Byte
  /-- `Z`, the zero flag (R24). -/
  z : Bool
  /-- `RUN`, the running latch (R25); `halted` is its negation (R37). -/
  run : Bool
  /-- `SP`, the reserved stack pointer (R26): reset zeroes it, nothing reads it. -/
  sp : Byte
  /-- `ADDR_MODE` as sampled at the release of reset and held until the next (R28). -/
  addrMode : AddrMode
deriving DecidableEq, Repr

/-- Why the machine stops with a fault. No constructor: "The hardware raises no synchronous
exception" (60_exceptions.md R200), and every step with `RUN` = true succeeds (R100). -/
inductive Fault where
deriving DecidableEq, Repr

/-- Why a step is refused. -/
inductive Refusal where
  /-- Raised by an arm of `exec` whose instruction has no meaning yet; no arm raises it. Safe. -/
  | notModelled (mnemonic : String)
deriving DecidableEq, Repr

/-- The state at the release of reset with policy `m` on the input `addr_mode` (R32, R230, R233). -/
def State.resetIn (m : AddrMode) : State where
  mem := []
  a := 0x00
  b := 0x00
  pc := 0x00
  z := false
  run := true
  sp := 0x00
  addrMode := m

/-- The machine right after reset. Every field but `addrMode` is R32's; `addrMode` is log entry 2. -/
def State.reset : State := State.resetIn Config.addrModeAtReset

end Sys2Proof.Machine
end

