-- ==== Sys2Proof/Machine/Ops.lean ====
section
/-! DEFINITION. The named operations over memory and registers: MemRead and MemWrite of R13, the
register writes, the advance of PC, `halt`, and the two fetches of a step. The hardware has no trap
entry and no trap return (60_exceptions.md R208, R209); `State.halt` is its one terminal operation. -/

namespace Sys2Proof.Machine

open Sys2Proof

/-! Memory -/

/-- The byte at address `x`; a cell not listed reads `Config.unlistedByte`. -/
def Memory.read : Memory → Nat → Byte
  | [], _ => Config.unlistedByte
  | cell :: rest, x => if cell.1 = x then cell.2 else Memory.read rest x

/-- Put a cell in its place by address. -/
def Memory.insertCell : Memory → Host.Cell → Memory
  | [], new => [new]
  | cell :: rest, new =>
    if cell.1 < new.1 then cell :: Memory.insertCell rest new else new :: cell :: rest

/-- Replace the byte at `x` by `v`; a cell of the value an unlisted cell reads as is not listed. -/
def Memory.write (m : Memory) (x : Nat) (v : Byte) : Memory :=
  if v = Config.unlistedByte then m.filter (fun cell => decide (cell.1 ≠ x))
  else Memory.insertCell (m.filter (fun cell => decide (cell.1 ≠ x))) (x, v)

/-- The canonical form: addresses strictly rising and below 256 (R20), no cell listed that an
unlisted one would equal (DESIGN CHOICE, log entry 14). -/
abbrev Memory.wf (m : Memory) : Prop :=
  m.Pairwise (fun c d => c.1 < d.1) ∧ ∀ c ∈ m, c.1 < 256 ∧ c.2 ≠ Config.unlistedByte

/-- `MemRead(addr, 1)` (R13): every access is one byte and in range (R58, R20). -/
def State.readMem (s : State) (addr : Byte) : Byte :=
  Memory.read s.mem addr.toNat

/-- `MemWrite(addr, 1, v)` (R13): replaces the one cell, no other effect (R35, R59). -/
def State.writeMem (s : State) (addr v : Byte) : State :=
  { s with mem := Memory.write s.mem addr.toNat v }

/-! Registers -/

/-- `A <- v` (R12). -/
def State.setA (s : State) (v : Byte) : State := { s with a := v }

/-- `B <- v` (R12). -/
def State.setB (s : State) (v : Byte) : State := { s with b := v }

/-- `Z <- v` (R12). -/
def State.setZ (s : State) (v : Bool) : State := { s with z := v }

/-- `PC <- v` (R12); any value is a legal instruction address (R23). -/
def State.setPc (s : State) (v : Byte) : State := { s with pc := v }

/-- `PC <- (PC + width) mod 256` (R106; the wrap is decision D3; DEDUCED, log entry 6). -/
def State.advance (s : State) (width : Byte) : State := s.setPc (s.pc + width)

/-- The primitive `halt`: `RUN <- false` and nothing else (44_halt.md R180). -/
def State.halt (s : State) : State := { s with run := false }

/-! The instruction cycle -/

/-- A step is enabled exactly when `RUN` = true (R100). -/
def State.stepEnabled (s : State) : Bool := s.run

/-- Opcode fetch: `MemRead(PC, 1)` (R102), never through `EA` (R55). -/
def State.fetchOpcode (s : State) : Byte := s.readMem s.pc

/-- Operand fetch: `MemRead((PC + 1) mod 256, 1)`, done for every opcode (R103; the wrap at 0xFF is
decision D2; DEDUCED, log entry 5). -/
def State.fetchOperand (s : State) : Byte := s.readMem (s.pc + 1)

/-- The instruction the next step runs (R102 to R104). -/
def State.fetchInstr (s : State) : Instr := decodeFetched s.fetchOpcode s.fetchOperand

/-- Put two bytes where the next step fetches its opcode and operand, and the machine in the
running state in which that step is enabled (DESIGN CHOICE, log entry 3). -/
def State.placeFetched (s : State) (opcode operand : Byte) : State :=
  { (s.writeMem s.pc opcode).writeMem (s.pc + 1) operand with run := true }

end Sys2Proof.Machine
end

