-- ==== Sys2Proof/Machine/Flags.lean ====
section
/-! DEFINITION. The zero flag, the only flag (10_state.md R24, 42_arithmetic.md R140). -/

namespace Sys2Proof.Machine

open Sys2Proof

/-- `result == 0`, on the 8-bit result after the reduction modulo 256 (R140). -/
def zeroFlag (result : Byte) : Bool := result == 0x00

/-- `A <- r; Z <- (r == 0)`: what ADD and SUB write beside PC (R147, R148). -/
def State.writeResult (s : State) (result : Byte) : State :=
  (s.setA result).setZ (zeroFlag result)

end Sys2Proof.Machine
end

