-- ==== Sys2Proof/Machine/Arithmetic.lean ====
section
/-! DEFINITION. The arithmetic family (42_arithmetic.md): ADD and SUB. Carry and borrow are lost
(R141); B is never written (R143). -/

namespace Sys2Proof.Machine

open Sys2Proof

/-- The true sum reduced modulo 256 (R141, R147). -/
def aluAdd (x y : Byte) : Byte := BitVec.ofNat 8 (x.toNat + y.toNat)

/-- The true difference reduced modulo 256 to its least non-negative residue (R13, R141, R148). -/
def aluSub (x y : Byte) : Byte := BitVec.ofInt 8 ((x.toNat : Int) - (y.toNat : Int))

/-- ADD (R147): `r = (A + B) mod 256; A <- r; Z <- (r == 0); PC <- (PC + 1) mod 256`. -/
def execAdd (s : State) : Host.Outcome State Fault Refusal :=
  .next ((s.writeResult (aluAdd s.a s.b)).advance 1)

/-- SUB (R148, decision D1; DEDUCED, log entry 4): `r = (A - B) mod 256; A <- r; Z <- (r == 0);
PC <- (PC + 1) mod 256`. The left operand is A. -/
def execSub (s : State) : Host.Outcome State Fault Refusal :=
  .next ((s.writeResult (aluSub s.a s.b)).advance 1)

end Sys2Proof.Machine
end

