-- ==== Sys2Proof/Machine/Operands.lean ====
section
/-! DEFINITION. The two operand forms (30_encoding.md R84): an address through the policy, and a
literal jump target. -/

namespace Sys2Proof.Machine

open Sys2Proof

/-- `EA(op)` of 20_memory.md R52 under a policy (the wrap under offset is decision D4, conflict C3;
DEDUCED, log entry 7). Total: it refuses no operand. -/
def effectiveAddress (mode : AddrMode) (operand : Byte) : Byte :=
  match mode with
  | .direct => operand
  | .offset => operand + Config.offsetBase

/-- `EA(op)` under the policy this instance latched at reset (R28). -/
def State.ea (s : State) (operand : Byte) : Byte := effectiveAddress s.addrMode operand

/-- The byte a load's operand names: `MemRead(EA(operand), 1)` (R121, R123). -/
def State.loadOperand (s : State) (operand : Byte) : Byte := s.readMem (s.ea operand)

/-- `MemWrite(EA(operand), 1, v)` (R122, R124). -/
def State.storeOperand (s : State) (operand v : Byte) : State := s.writeMem (s.ea operand) v

/-- A jump's target: the operand as it stands, never through `EA` (R54, R160). -/
def jumpTarget (operand : Byte) : Byte := operand

end Sys2Proof.Machine
end

