-- ==== Sys2Proof/Machine/Control.lean ====
section
/-! DEFINITION. The control transfer family (43_control_transfer.md): JMP and JZ. No delay slot, no
link, no alignment (R160). -/

namespace Sys2Proof.Machine

open Sys2Proof

/-- JMP (R161): `PC <- operand`, whatever Z is. -/
def execJmp (operand : Byte) (s : State) : Host.Outcome State Fault Refusal :=
  .next (s.setPc (jumpTarget operand))

/-- JZ (R162): `if Z then PC <- operand else PC <- (PC + 2) mod 256`; Z keeps its value. -/
def execJz (operand : Byte) (s : State) : Host.Outcome State Fault Refusal :=
  .next (if s.z then s.setPc (jumpTarget operand) else s.advance 2)

end Sys2Proof.Machine
end

