-- ==== Sys2Proof/Machine/Halting.lean ====
section
/-! DEFINITION. The halt sequencer (44_halt.md): HLT and the unknown-opcode halt. Neither moves PC
(40_instruction_cycle.md R108) and neither records a cause (R180). -/

namespace Sys2Proof.Machine

open Sys2Proof

/-- HLT (R181): `RUN <- false`. -/
def execHlt (s : State) : Host.Outcome State Fault Refusal :=
  .next s.halt

/-- Unknown opcode (R182): `RUN <- false`, whichever of the 247 bytes it is; the byte is recorded
nowhere (R202). -/
def execUnknown (_opcode : Byte) (s : State) : Host.Outcome State Fault Refusal :=
  .next s.halt

end Sys2Proof.Machine
end

