-- ==== Sys2Proof/Machine/LoadStore.lean ====
section
/-! DEFINITION. The load and store family (41_load_store.md): LDA, STA, LDB, STB. None touches Z,
none can raise anything (R120). -/

namespace Sys2Proof.Machine

open Sys2Proof

/-- LDA (R121): `A <- MemRead(EA(operand), 1); PC <- (PC + 2) mod 256`. -/
def execLda (operand : Byte) (s : State) : Host.Outcome State Fault Refusal :=
  .next ((s.setA (s.loadOperand operand)).advance 2)

/-- STA (R122): `MemWrite(EA(operand), 1, A); PC <- (PC + 2) mod 256`. -/
def execSta (operand : Byte) (s : State) : Host.Outcome State Fault Refusal :=
  .next ((s.storeOperand operand s.a).advance 2)

/-- LDB (R123): `B <- MemRead(EA(operand), 1); PC <- (PC + 2) mod 256`. -/
def execLdb (operand : Byte) (s : State) : Host.Outcome State Fault Refusal :=
  .next ((s.setB (s.loadOperand operand)).advance 2)

/-- STB (R124): `MemWrite(EA(operand), 1, B); PC <- (PC + 2) mod 256`. -/
def execStb (operand : Byte) (s : State) : Host.Outcome State Fault Refusal :=
  .next ((s.storeOperand operand s.b).advance 2)

end Sys2Proof.Machine
end

