-- ==== Sys2Proof/Machine/Dispatch.lean ====
section
/-! DEFINITION. One arm per instruction. -/

namespace Sys2Proof.Machine

open Sys2Proof

def exec (i : Instr) (s : State) : Host.Outcome State Fault Refusal :=
  match i with
  | .lda operand => Sys2Proof.Machine.execLda operand s
  | .sta operand => Sys2Proof.Machine.execSta operand s
  | .ldb operand => Sys2Proof.Machine.execLdb operand s
  | .stb operand => Sys2Proof.Machine.execStb operand s
  | .add => Sys2Proof.Machine.execAdd s
  | .sub => Sys2Proof.Machine.execSub s
  | .jmp operand => Sys2Proof.Machine.execJmp operand s
  | .jz operand => Sys2Proof.Machine.execJz operand s
  | .hlt => Sys2Proof.Machine.execHlt s
  | .unknown opcode => Sys2Proof.Machine.execUnknown opcode s

end Sys2Proof.Machine
end

