-- ==== Sys2Proof/Machine/Step.lean ====
section
/-! DEFINITION. One step of the machine, and the placing of an instruction where the next step
fetches it. -/

namespace Sys2Proof.Machine

open Sys2Proof

/-- One step (40_instruction_cycle.md R100 to R105): fetch, decode, perform. A halted machine has no
step; the total function returns its state unchanged (R110, decision D10; DEDUCED, log entry 9). -/
def step (s : State) : Host.Outcome State Fault Refusal :=
  if s.stepEnabled then exec s.fetchInstr s else .next s

/-- `s` with the instruction of opcode-table bits `w` where `step` fetches next (DESIGN CHOICE, log entry 3). -/
def State.withFetchWord (s : State) (nbits w : Nat) : State :=
  s.placeFetched (tableByte nbits w 0) (tableByte nbits w 1)

end Sys2Proof.Machine
end

