-- ==== Sys2Proof/Machine/Ports.lean ====
section
/-! DEFINITION. The block's interface: the outputs (10_state.md R34, R37, R38), the memory accesses
of a step (R36, 20_memory.md R51), and the host's moves around the core (R40, R41, R230, R233,
R234). The ports are the spec's own choice (decision D7); no step depends on them
(DEDUCED, log entries 11 and 13). -/

namespace Sys2Proof.Machine

open Sys2Proof

/-- The outputs of the port list of R34 that show state. -/
structure Outputs where
  halted : Bool
  dbgA : Byte
  dbgB : Byte
  dbgPc : Byte
  dbgZ : Bool
deriving DecidableEq, Repr

/-- What the outputs show: `halted` equals `not RUN` (R37), `dbg_*` the registers (R38). -/
def State.outputs (s : State) : Outputs where
  halted := !s.run
  dbgA := s.a
  dbgB := s.b
  dbgPc := s.pc
  dbgZ := s.z

/-- One access on the memory port (R34): `mem_we` is 1 for a write only. -/
inductive Access where
  | read (addr : Byte)
  | write (addr data : Byte)
deriving DecidableEq, Repr

/-- The data access of an instruction beyond the two fetches (R36, R51). -/
def dataAccesses (i : Instr) (s : State) : List Access :=
  match i with
  | .lda operand | .ldb operand => [.read (s.ea operand)]
  | .sta operand => [.write (s.ea operand) s.a]
  | .stb operand => [.write (s.ea operand) s.b]
  | .add | .sub | .jmp _ | .jz _ | .hlt | .unknown _ => []

/-- The accesses the next step makes: two fetches, then the data access; none when halted (R36,
R110). The order within a step is not architectural. -/
def State.stepAccesses (s : State) : List Access :=
  if s.stepEnabled then
    [.read s.pc, .read (s.pc + 1)] ++ dataAccesses s.fetchInstr s
  else []

/-- The memory attached to the port: a write replaces its cell, a read changes nothing (R35). -/
def replayAccess (s : State) : Access → State
  | .read _ => s
  | .write addr data => s.writeMem addr data

/-- The host's load: raw bytes written at addresses of its choosing, in order (R234). -/
def State.load (s : State) (image : List (Byte × Byte)) : State :=
  image.foldl (fun t cell => t.writeMem cell.1 cell.2) s

/-- The core and the platform's load window: open from reset to the first step (R41, R234). -/
structure Platform where
  core : State
  loadWindow : Bool
deriving DecidableEq, Repr

/-- What the outside world can do to the machine. -/
inductive HostMove where
  /-- Assert and release `rst` with `m` on `addr_mode` (R230, R233). -/
  | reset (m : AddrMode)
  /-- Write one cell of `M` through the platform's path (R41). -/
  | write (addr v : Byte)
  /-- One chance to begin a step, with `run_en` as given (R40). -/
  | tick (runEn : Bool)
deriving DecidableEq, Repr

/-- The effect of a host move, or none where the model has no such move: a write during a run (R41,
R244, U11), and, so that the type is total, a step that did not answer a next state (R100 says
none exists). -/
def Platform.move (p : Platform) : HostMove → Option Platform
  | .reset m => some ⟨State.resetIn m, true⟩
  | .write addr v =>
    if p.loadWindow || !p.core.run then some ⟨p.core.writeMem addr v, p.loadWindow⟩ else none
  | .tick runEn =>
    if runEn then
      match step p.core with
      | .next s => some ⟨s, false⟩
      | .fault _ => none
      | .refused _ => none
    else some p

/-- Several moves in order; none as soon as one is no move of the model. -/
def Platform.moves (p : Platform) : List HostMove → Option Platform
  | [] => some p
  | m :: rest =>
    match p.move m with
    | some q => Platform.moves q rest
    | none => none

end Sys2Proof.Machine
end

