-- ==== Sys2Proof/Machine/Listing.lean ====
section
/-! DEFINITION. The listing syntax of 30_encoding.md R89 and R90 (decision D14): notation for
programs, used by no step. -/

namespace Sys2Proof.Machine

open Sys2Proof

/-- The mnemonic of a row of R85, and of the catch-all row as spec/opcode_table.json names it. -/
def mnemonic : Instr → String
  | .lda _ => "LDA"
  | .sta _ => "STA"
  | .ldb _ => "LDB"
  | .stb _ => "STB"
  | .add => "ADD"
  | .sub => "SUB"
  | .jmp _ => "JMP"
  | .jz _ => "JZ"
  | .hlt => "HLT"
  | .unknown _ => "(unknown)"

/-- The hexadecimal digit of a value below 16, in capitals. -/
def hexDigit (n : Nat) : Char :=
  if n < 10 then Char.ofNat (48 + n) else Char.ofNat (55 + n)

/-- `0xNN`, two hexadecimal digits (R90). -/
def hexByte (v : Byte) : String :=
  String.ofList ['0', 'x', hexDigit (v.toNat / 16), hexDigit (v.toNat % 16)]

/-- One line of a listing (R90). -/
inductive Line where
  /-- `MNEMONIC` or `MNEMONIC 0xNN`; an unknown opcode has no mnemonic and is written `.byte`. -/
  | instr (i : Instr)
  /-- `.org 0xNN`: the address of the next byte. -/
  | org (addr : Byte)
  /-- `.byte 0xNN`: one data byte. -/
  | byte (v : Byte)
deriving DecidableEq, Repr

/-- The text of a line; the operand is the encoded byte itself, not the effective address (R90). -/
def Line.text : Line → String
  | .instr (.unknown opcode) => ".byte " ++ hexByte opcode
  | .instr (.lda operand) => "LDA " ++ hexByte operand
  | .instr (.sta operand) => "STA " ++ hexByte operand
  | .instr (.ldb operand) => "LDB " ++ hexByte operand
  | .instr (.stb operand) => "STB " ++ hexByte operand
  | .instr (.jmp operand) => "JMP " ++ hexByte operand
  | .instr (.jz operand) => "JZ " ++ hexByte operand
  | .instr i => mnemonic i
  | .org addr => ".org " ++ hexByte addr
  | .byte v => ".byte " ++ hexByte v

/-- Place bytes one after another from an address. -/
def placeBytes (addr : Byte) : List Byte → List (Byte × Byte)
  | [] => []
  | v :: rest => (addr, v) :: placeBytes (addr + 1) rest

/-- The image a listing assembles to from an address: every line with a mnemonic gives exactly the
bytes of R85. Past 0xFF it goes on at 0x00 (DESIGN CHOICE, log entry 12). -/
def assemble (addr : Byte) : List Line → List (Byte × Byte)
  | [] => []
  | .instr i :: rest =>
    placeBytes addr (encode i) ++ assemble (addr + BitVec.ofNat 8 (encode i).length) rest
  | .org next :: rest => assemble next rest
  | .byte v :: rest => (addr, v) :: assemble (addr + 1) rest

end Sys2Proof.Machine
end

