-- ==== Sys2Proof/Machine/Pseudocode.lean ====
section
/-! DEFINITION. The step as the spec's one piece of pseudocode (40_instruction_cycle.md R105), over
plain numbers reduced by `mod 256` and a memory that is a function. It is independent of `exec`,
`decodeFetched` and the byte operations: a statement compares the two machines. -/

namespace Sys2Proof.Machine

open Sys2Proof

/-- The registers of R31 as numbers. -/
structure Registers where
  a : Nat
  b : Nat
  pc : Nat
  z : Bool
  run : Bool
  sp : Nat
deriving DecidableEq, Repr

/-- `M[x] <- v`. -/
def updateCell (m : Nat → Nat) (x v : Nat) : Nat → Nat :=
  fun y => if y = x then v else m y

/-- `EA(op)` of R52 on numbers. -/
def pseudoEA (mode : AddrMode) (op : Nat) : Nat :=
  match mode with
  | .direct => op
  | .offset => (op + 128) % 256

/-- The case statement of R105; its precondition is `RUN` = true. -/
def pseudoStep (mode : AddrMode) (m : Nat → Nat) (r : Registers) : (Nat → Nat) × Registers :=
  let opcode := m r.pc
  let operand := m ((r.pc + 1) % 256)
  let next1 := (r.pc + 1) % 256
  let next2 := (r.pc + 2) % 256
  if opcode = 0x01 then (m, { r with a := m (pseudoEA mode operand), pc := next2 })
  else if opcode = 0x02 then (updateCell m (pseudoEA mode operand) r.a, { r with pc := next2 })
  else if opcode = 0x03 then (m, { r with b := m (pseudoEA mode operand), pc := next2 })
  else if opcode = 0x04 then (updateCell m (pseudoEA mode operand) r.b, { r with pc := next2 })
  else if opcode = 0x05 then
    let sum := (r.a + r.b) % 256
    (m, { r with a := sum, z := decide (sum = 0), pc := next1 })
  else if opcode = 0x06 then
    let difference := (r.a + 256 - r.b) % 256
    (m, { r with a := difference, z := decide (difference = 0), pc := next1 })
  else if opcode = 0x07 then (m, { r with pc := operand })
  else if opcode = 0x08 then (m, { r with pc := if r.z then operand else next2 })
  else (m, { r with run := false })

/-- The registers of a state of the model, as numbers. -/
def State.registers (s : State) : Registers where
  a := s.a.toNat
  b := s.b.toNat
  pc := s.pc.toNat
  z := s.z
  run := s.run
  sp := s.sp.toNat

end Sys2Proof.Machine
end

