-- ==== Sys2Proof/Safety.lean ====
section
/-! DEFINITION. The terms claims use: what a step leaves alone, what a halted machine shows, and the
invariants every step keeps. -/

namespace Sys2Proof.Machine

open Sys2Proof

/-- Every cell of `M` reads in `t` as it reads in `s`. -/
def MemorySame (s t : State) : Prop := ∀ x : Byte, t.readMem x = s.readMem x

/-- Every cell of `M` but the one at `addr` reads in `t` as it reads in `s`. -/
def MemorySameExcept (addr : Byte) (s t : State) : Prop :=
  ∀ x : Byte, x ≠ addr → t.readMem x = s.readMem x

/-- The opcode bytes on which a step halts: 0xFF and the unknown set {0x00, 0x09 to 0xFE} (R181,
R182). -/
def HaltingOpcode (opcode : Byte) : Prop := opcode = 0x00 ∨ 0x09 ≤ opcode.toNat

/-- Why a halted machine stopped (R202). -/
inductive HaltCause where
  | hlt
  | unknownOpcode (opcode : Byte)
deriving DecidableEq, Repr

/-- What the inspector of R202 concludes from `PC` and `M[PC]`; none while `RUN` is true. Whether an
unknown-opcode halt counts as gone wrong is for a claim to say (file 93, U6). -/
def State.haltCause (s : State) : Option HaltCause :=
  if s.run then none
  else if s.readMem s.pc = 0xFF then some .hlt
  else some (.unknownOpcode (s.readMem s.pc))

/-- The memory list is in canonical form. -/
def CanonicalMemory (s : State) : Prop := Memory.wf s.mem

/-- A machine that is not running stands at a byte that halts (R108, R202). -/
def HaltedAtHalt (s : State) : Prop := s.run = false → HaltingOpcode (s.readMem s.pc)

/-- The reserved stack pointer holds its reset value (R26). -/
def StackPointerZero (s : State) : Prop := s.sp = 0x00

end Sys2Proof.Machine
end

