-- ==== Sys2Proof/Certificates/Slice0/Obligations.lean ====
section
/-! DEFINITION. The statements for the provers, each with the rule or section of spec/ it
formalises. Two inferences of the spec run through many of them: `PC` and the operand's address wrap
at 256 (decisions D2 and D3, log entries 5 and 6). Where a numbered rule itself writes `mod 256`,
the statement is of that rule; where the rule is marked as the spec's decision or derivation, the
statement's basis is 'derived'. -/

open Sys2Proof Sys2Proof.Machine

/-! ## One statement per instruction: its bytes, its accesses, its completion, its frame -/

/-- LDA (41_load_store.md R121). -/
def Obligations.LdaLoadsAccumulator : Prop :=
  (∀ operand, encode (.lda operand) = [0x01, operand]) ∧
  (∀ s : State, s.run = true → s.readMem s.pc = 0x01 →
    step s = exec (.lda (s.readMem (s.pc + 1))) s ∧
    s.stepAccesses = [.read s.pc, .read (s.pc + 1), .read (s.ea (s.readMem (s.pc + 1)))]) ∧
  (∀ (s : State) (operand : Byte), ∃ t, exec (.lda operand) s = .next t ∧
    t.a = s.readMem (s.ea operand) ∧ t.pc.toNat = (s.pc.toNat + 2) % 256 ∧
    t.b = s.b ∧ t.z = s.z ∧ t.run = s.run ∧ t.sp = s.sp ∧ t.addrMode = s.addrMode ∧
    MemorySame s t)

/-- STA (41_load_store.md R122): one cell, at `EA(operand)`, and `PC`. -/
def Obligations.StaStoresAccumulator : Prop :=
  (∀ operand, encode (.sta operand) = [0x02, operand]) ∧
  (∀ s : State, s.run = true → s.readMem s.pc = 0x02 →
    step s = exec (.sta (s.readMem (s.pc + 1))) s ∧
    s.stepAccesses = [.read s.pc, .read (s.pc + 1), .write (s.ea (s.readMem (s.pc + 1))) s.a]) ∧
  (∀ (s : State) (operand : Byte), ∃ t, exec (.sta operand) s = .next t ∧
    t.readMem (s.ea operand) = s.a ∧ MemorySameExcept (s.ea operand) s t ∧
    t.pc.toNat = (s.pc.toNat + 2) % 256 ∧
    t.a = s.a ∧ t.b = s.b ∧ t.z = s.z ∧ t.run = s.run ∧ t.sp = s.sp ∧ t.addrMode = s.addrMode)

/-- LDB (41_load_store.md R123). -/
def Obligations.LdbLoadsB : Prop :=
  (∀ operand, encode (.ldb operand) = [0x03, operand]) ∧
  (∀ s : State, s.run = true → s.readMem s.pc = 0x03 →
    step s = exec (.ldb (s.readMem (s.pc + 1))) s ∧
    s.stepAccesses = [.read s.pc, .read (s.pc + 1), .read (s.ea (s.readMem (s.pc + 1)))]) ∧
  (∀ (s : State) (operand : Byte), ∃ t, exec (.ldb operand) s = .next t ∧
    t.b = s.readMem (s.ea operand) ∧ t.pc.toNat = (s.pc.toNat + 2) % 256 ∧
    t.a = s.a ∧ t.z = s.z ∧ t.run = s.run ∧ t.sp = s.sp ∧ t.addrMode = s.addrMode ∧
    MemorySame s t)

/-- STB (41_load_store.md R124): one cell, at `EA(operand)`, and `PC`. -/
def Obligations.StbStoresB : Prop :=
  (∀ operand, encode (.stb operand) = [0x04, operand]) ∧
  (∀ s : State, s.run = true → s.readMem s.pc = 0x04 →
    step s = exec (.stb (s.readMem (s.pc + 1))) s ∧
    s.stepAccesses = [.read s.pc, .read (s.pc + 1), .write (s.ea (s.readMem (s.pc + 1))) s.b]) ∧
  (∀ (s : State) (operand : Byte), ∃ t, exec (.stb operand) s = .next t ∧
    t.readMem (s.ea operand) = s.b ∧ MemorySameExcept (s.ea operand) s t ∧
    t.pc.toNat = (s.pc.toNat + 2) % 256 ∧
    t.a = s.a ∧ t.b = s.b ∧ t.z = s.z ∧ t.run = s.run ∧ t.sp = s.sp ∧ t.addrMode = s.addrMode)

/-- ADD (42_arithmetic.md R147): the reduced sum, and Z from it. -/
def Obligations.AddWrapsAndSetsZero : Prop :=
  encode .add = [0x05] ∧
  (∀ s : State, s.run = true → s.readMem s.pc = 0x05 →
    step s = exec .add s ∧ s.stepAccesses = [.read s.pc, .read (s.pc + 1)]) ∧
  (∀ s : State, ∃ t, exec .add s = .next t ∧
    t.a.toNat = (s.a.toNat + s.b.toNat) % 256 ∧
    (t.z = true ↔ (s.a.toNat + s.b.toNat) % 256 = 0) ∧
    t.pc.toNat = (s.pc.toNat + 1) % 256 ∧
    t.b = s.b ∧ t.run = s.run ∧ t.sp = s.sp ∧ t.addrMode = s.addrMode ∧ MemorySame s t)

/-- SUB (42_arithmetic.md section 2). Derived: that 0x06 is SUB is the spec's decision D1 (log entry
4). The last clause: `A` = `B` is the only way Z becomes true. -/
def Obligations.SubWrapsAndSetsZero : Prop :=
  encode .sub = [0x06] ∧
  (∀ s : State, s.run = true → s.readMem s.pc = 0x06 →
    step s = exec .sub s ∧ s.stepAccesses = [.read s.pc, .read (s.pc + 1)]) ∧
  (∀ s : State, ∃ t, exec .sub s = .next t ∧
    (t.a.toNat : Int) = ((s.a.toNat : Int) - (s.b.toNat : Int)) % 256 ∧
    (t.z = true ↔ t.a.toNat = 0) ∧ (t.z = true ↔ s.a = s.b) ∧
    t.pc.toNat = (s.pc.toNat + 1) % 256 ∧
    t.b = s.b ∧ t.run = s.run ∧ t.sp = s.sp ∧ t.addrMode = s.addrMode ∧ MemorySame s t)

/-- JMP (43_control_transfer.md R161): `PC` only, whatever Z is. -/
def Obligations.JmpGoesToOperand : Prop :=
  (∀ operand, encode (.jmp operand) = [0x07, operand]) ∧
  (∀ s : State, s.run = true → s.readMem s.pc = 0x07 →
    step s = exec (.jmp (s.readMem (s.pc + 1))) s ∧
    s.stepAccesses = [.read s.pc, .read (s.pc + 1)]) ∧
  (∀ (s : State) (operand : Byte), ∃ t, exec (.jmp operand) s = .next t ∧
    t.pc = operand ∧ t.a = s.a ∧ t.b = s.b ∧ t.z = s.z ∧ t.run = s.run ∧ t.sp = s.sp ∧
    t.addrMode = s.addrMode ∧ MemorySame s t)

/-- JZ (43_control_transfer.md R162): taken exactly when Z is true, else the width is added; Z is
read and kept. -/
def Obligations.JzBranchesOnZero : Prop :=
  (∀ operand, encode (.jz operand) = [0x08, operand]) ∧
  (∀ s : State, s.run = true → s.readMem s.pc = 0x08 →
    step s = exec (.jz (s.readMem (s.pc + 1))) s ∧
    s.stepAccesses = [.read s.pc, .read (s.pc + 1)]) ∧
  (∀ (s : State) (operand : Byte), ∃ t, exec (.jz operand) s = .next t ∧
    t.pc.toNat = (if s.z then operand.toNat else (s.pc.toNat + 2) % 256) ∧
    t.a = s.a ∧ t.b = s.b ∧ t.z = s.z ∧ t.run = s.run ∧ t.sp = s.sp ∧
    t.addrMode = s.addrMode ∧ MemorySame s t)

/-- HLT (44_halt.md R181): `RUN` only. -/
def Obligations.HltClearsRunOnly : Prop :=
  encode .hlt = [0xFF] ∧
  (∀ s : State, s.run = true → s.readMem s.pc = 0xFF →
    step s = exec .hlt s ∧ s.stepAccesses = [.read s.pc, .read (s.pc + 1)]) ∧
  (∀ s : State, ∃ t, exec .hlt s = .next t ∧ t.run = false ∧
    t.pc = s.pc ∧ t.a = s.a ∧ t.b = s.b ∧ t.z = s.z ∧ t.sp = s.sp ∧
    t.addrMode = s.addrMode ∧ MemorySame s t)

/-- Unknown opcode (44_halt.md R182): every byte in {0x00, 0x09 to 0xFE} halts and changes nothing
else, with the effect of HLT. -/
def Obligations.UnknownOpcodeHalts : Prop :=
  (∀ s : State, s.run = true →
    (s.readMem s.pc = 0x00 ∨ (0x09 ≤ (s.readMem s.pc).toNat ∧ (s.readMem s.pc).toNat ≤ 0xFE)) →
    step s = exec (.unknown (s.readMem s.pc)) s ∧
    s.stepAccesses = [.read s.pc, .read (s.pc + 1)]) ∧
  (∀ (s : State) (opcode : Byte), ∃ t, exec (.unknown opcode) s = .next t ∧
    exec .hlt s = .next t ∧ t.run = false ∧
    t.pc = s.pc ∧ t.a = s.a ∧ t.b = s.b ∧ t.z = s.z ∧ t.sp = s.sp ∧
    t.addrMode = s.addrMode ∧ MemorySame s t)

/-! ## The step -/

/-- Every enabled step executes one well-formed instruction and answers a next state, whatever bytes
memory holds; so does every instruction on every state (40_instruction_cycle.md R100, R200). -/
def Obligations.StepIsTotal : Prop :=
  (∀ s : State, s.stepEnabled = true ↔ s.run = true) ∧
  (∀ s : State, s.run = true →
    ∃ i t, Instr.wellFormed i = true ∧ step s = exec i s ∧ step s = .next t) ∧
  (∀ (i : Instr) (s : State), ∃ t, exec i s = .next t)

/-- When the two bytes at `PC` hold a well-formed instruction, the step is `exec` of it and nothing
around it. The byte after a one-byte instruction is read and discarded (R102 to R104; the operand's
wrap at 0xFF is decision D2, log entry 5). -/
def Obligations.StepRunsTheDecodedInstruction : Prop :=
  ∀ (s : State) (i : Instr), s.run = true → i.wellFormed = true →
    (encode i = [s.readMem s.pc] ∨ encode i = [s.readMem s.pc, s.readMem (s.pc + 1)]) →
    step s = exec i s

/-- The frame rule (40_instruction_cycle.md R113), by the opcode byte at `PC`. -/
def Obligations.StepChangesOnlyWhatItsRuleWrites : Prop :=
  ∀ s t : State, s.run = true → step s = .next t →
    t.sp = s.sp ∧ t.addrMode = s.addrMode ∧
    (s.readMem s.pc ≠ 0x03 → t.b = s.b) ∧
    (s.readMem s.pc ∉ [(0x01 : Byte), 0x05, 0x06] → t.a = s.a) ∧
    (s.readMem s.pc ∉ [(0x05 : Byte), 0x06] → t.z = s.z) ∧
    (¬ HaltingOpcode (s.readMem s.pc) → t.run = s.run) ∧
    (s.readMem s.pc ∉ [(0x02 : Byte), 0x04] → MemorySame s t) ∧
    (s.readMem s.pc ∈ [(0x02 : Byte), 0x04] →
      MemorySameExcept (s.ea (s.readMem (s.pc + 1))) s t) ∧
    (HaltingOpcode (s.readMem s.pc) →
      t.run = false ∧ t.a = s.a ∧ t.b = s.b ∧ t.pc = s.pc ∧ t.z = s.z ∧ MemorySame s t)

/-- The step is the pseudocode of 40_instruction_cycle.md R105, read over numbers: the model's
bytes, sparse memory and decoder refine the spec's one case statement. Derived: its arm 0x06 is SUB
by decision D1 (log entry 4), its operand fetch at 0xFF is decision D2 (log entry 5), its PC wrap is
decision D3 (log entry 6), and the wrap of `pseudoEA` under offset is decision D4 (log entry 7). -/
def Obligations.StepRefinesThePseudocode : Prop :=
  ∀ s : State, s.run = true → ∃ t, step s = .next t ∧ t.addrMode = s.addrMode ∧
    pseudoStep s.addrMode (fun x => (Memory.read s.mem x).toNat) s.registers =
      ((fun x => (Memory.read t.mem x).toNat), t.registers)

/-- The accesses of a step (20_memory.md R51): two fetches, the one read of LDA and LDB, the one
write of STA and STB; memory after the step is memory before it with those writes replayed. -/
def Obligations.StepMakesOnlyItsAccesses : Prop :=
  ∀ s t : State, s.run = true → step s = .next t →
    s.stepAccesses =
      [Access.read s.pc, Access.read (s.pc + 1)] ++
        (if s.readMem s.pc = 0x01 ∨ s.readMem s.pc = 0x03 then
          [Access.read (s.ea (s.readMem (s.pc + 1)))]
        else if s.readMem s.pc = 0x02 then [Access.write (s.ea (s.readMem (s.pc + 1))) s.a]
        else if s.readMem s.pc = 0x04 then [Access.write (s.ea (s.readMem (s.pc + 1))) s.b]
        else []) ∧
    t.mem = (s.stepAccesses.foldl replayAccess s).mem

/-- The core reads no other cell: a memory that agrees on the cells the step reads gives the same
registers (20_memory.md section 1, derived). -/
def Obligations.StepDependsOnlyOnCellsRead : Prop :=
  ∀ (s t : State) (m : Memory), step s = .next t →
    (∀ x : Byte, Access.read x ∈ s.stepAccesses → Memory.read m x.toNat = s.readMem x) →
    ∃ t', step { s with mem := m } = .next t' ∧ { t' with mem := t.mem } = t

/-! ## The addressing policy -/

/-- `EA` (20_memory.md section 2): the operand under direct, plus 128 modulo 256 under offset, which
inverts bit 7 alone; every cell stays reachable. Derived: the wrap is decision D4 (log entry 7). -/
def Obligations.EffectiveAddressFollowsThePolicy : Prop :=
  ∀ (s : State) (op : Byte),
    (s.addrMode = .direct → s.ea op = op) ∧
    (s.addrMode = .offset → (s.ea op).toNat = (op.toNat + 128) % 256 ∧
      (s.ea op).getLsbD 7 = !op.getLsbD 7 ∧
      ∀ i, i < 7 → (s.ea op).getLsbD i = op.getLsbD i) ∧
    ∃ op', s.ea op' = op

/-- `EA` applies to the operands of LDA, STA, LDB and STB only; a jump target is never offset, in
either mode (20_memory.md R54). -/
def Obligations.JumpTargetIsNeverOffset : Prop :=
  ∀ (s : State) (op : Byte),
    dataAccesses (.lda op) s = [.read (s.ea op)] ∧ dataAccesses (.ldb op) s = [.read (s.ea op)] ∧
    dataAccesses (.sta op) s = [.write (s.ea op) s.a] ∧
    dataAccesses (.stb op) s = [.write (s.ea op) s.b] ∧
    ∀ m : AddrMode,
      (∃ t, exec (.jmp op) { s with addrMode := m } = .next t ∧ t.pc = op ∧
        t.addrMode = m) ∧
      (s.z = true → ∃ t, exec (.jz op) { s with addrMode := m } = .next t ∧ t.pc = op) ∧
      ∀ i, i ∈ [Instr.jmp op, Instr.jz op, .add, .sub, .hlt, .unknown op] →
        dataAccesses i { s with addrMode := m } = []

/-- The policy selects `EA` and nothing else (10_state.md section 1, derived): on every opcode but
those of loads and stores, two machines that differ in the policy step alike. -/
def Obligations.PolicySelectsOnlyTheAddress : Prop :=
  ∀ (s t : State) (m : AddrMode), step s = .next t →
    s.readMem s.pc ∉ [(0x01 : Byte), 0x02, 0x03, 0x04] →
    step { s with addrMode := m } = .next { t with addrMode := m }

/-! ## The zero flag and the ALU -/

/-- The zero flag (10_state.md section 1, 42_arithmetic.md section 1): ADD and SUB write it both ways
from the 8-bit result, every other instruction keeps it, only JZ reads it, reset clears it. Derived:
that 0x06 is SUB, and so writes Z, is decision D1 (log entry 4). -/
def Obligations.ZeroFlagTracksTheLastResult : Prop :=
  (∀ s t : State, s.run = true → step s = .next t →
    if s.readMem s.pc = 0x05 ∨ s.readMem s.pc = 0x06 then (t.z = true ↔ t.a.toNat = 0)
    else t.z = s.z) ∧
  (∀ (s t : State) (v : Bool), s.run = true → step s = .next t → s.readMem s.pc ≠ 0x08 →
    ∃ t', step { s with z := v } = .next t' ∧ { t' with z := t.z } = t) ∧
  (∀ m : AddrMode, (State.resetIn m).z = false)

/-- Between arithmetic instructions Z keeps its value, over any number of steps (42_arithmetic.md
section 1, derived). -/
def Obligations.ZeroFlagPersistsBetweenArithmetic : Prop :=
  ∀ (n : Nat) (s t : State), core.run n s = .next t →
    (∀ k u, k < n → core.run k s = .next u → u.readMem u.pc ≠ 0x05 ∧ u.readMem u.pc ≠ 0x06) →
    t.z = s.z

/-- The exhaustive property of ADD (42_arithmetic.md R146), for all byte values. -/
def Obligations.AddHoldsForAllBytes : Prop :=
  ∀ (s : State) (b c : Byte), s.a = b → s.b = c →
    ∃ t, exec .add s = .next t ∧
      t.a.toNat = (b.toNat + c.toNat) % 256 ∧ (t.z = true ↔ t.a.toNat = 0) ∧
      (t.z = true ↔ b.toNat + c.toNat = 0 ∨ b.toNat + c.toNat = 256) ∧
      (t.z = true ↔ c.toNat = (256 - b.toNat) % 256)

/-- ADD then SUB, and SUB then ADD, with B unchanged between them, restore A; Z then reflects the
restored value (42_arithmetic.md section 2, derived; SUB is decision D1, log entry 4). -/
def Obligations.AddAndSubAreInverse : Prop :=
  (∀ s : State, ∃ u t, exec .add s = .next u ∧ exec .sub u = .next t ∧
    t.a = s.a ∧ t.b = s.b ∧ (t.z = true ↔ s.a = 0x00)) ∧
  (∀ s : State, ∃ u t, exec .sub s = .next u ∧ exec .add u = .next t ∧
    t.a = s.a ∧ t.b = s.b ∧ (t.z = true ↔ s.a = 0x00))

/-- The alternative of 00_scope.md section 4, with `SUB_IMPLEMENTED` false: 0x06 is an unknown opcode
and every other byte decodes as it does here; this hardware's constant is true (decision D1, log
entry 4). -/
def Obligations.SubAbsentMakes06Unknown : Prop :=
  (∀ operand, decodeIn false 0x06 operand = .unknown 0x06) ∧
  (∀ operand, decodeFetched 0x06 operand = .sub) ∧
  (∀ opcode operand, opcode ≠ 0x06 →
    decodeIn false opcode operand = decodeFetched opcode operand)

/-! ## Memory: order, code and data -/

/-- A store is seen by every later fetch of its cell, and does not change the storing instruction
itself, even one that overwrites its own bytes (20_memory.md section 6, derived). -/
def Obligations.StoreIsSeenByTheNextFetch : Prop :=
  ∀ (s t : State) (v : Byte), s.run = true →
    ((s.readMem s.pc = 0x02 ∧ v = s.a) ∨ (s.readMem s.pc = 0x04 ∧ v = s.b)) →
    step s = .next t →
    t.readMem (s.ea (s.readMem (s.pc + 1))) = v ∧
    (s.ea (s.readMem (s.pc + 1)) = t.pc →
      t.fetchInstr = decodeFetched v t.fetchOperand) ∧
    (s.ea (s.readMem (s.pc + 1)) = t.pc + 1 →
      t.fetchInstr = decodeFetched t.fetchOpcode v) ∧
    t.run = true ∧ t.pc = s.pc + 2

/-- The copy law (41_load_store.md, after the four instructions; its half on LDB and STB is the
spec's own derivation): a load and the store after it copy a cell, PC advances by 4, and the
register holds the value. -/
def Obligations.LoadThenStoreCopiesACell : Prop :=
  ∀ s : State, s.run = true →
    (s.readMem s.pc = 0x01 → s.readMem (s.pc + 2) = 0x02 →
      ∃ t, core.run 2 s = .next t ∧
        t.readMem (s.ea (s.readMem (s.pc + 3))) = s.readMem (s.ea (s.readMem (s.pc + 1))) ∧
        t.a = s.readMem (s.ea (s.readMem (s.pc + 1))) ∧ t.pc = s.pc + 4) ∧
    (s.readMem s.pc = 0x03 → s.readMem (s.pc + 2) = 0x04 →
      ∃ t, core.run 2 s = .next t ∧
        t.readMem (s.ea (s.readMem (s.pc + 3))) = s.readMem (s.ea (s.readMem (s.pc + 1))) ∧
        t.b = s.readMem (s.ea (s.readMem (s.pc + 1))) ∧ t.pc = s.pc + 4)

/-- Every step keeps the memory list in its canonical form (the model's own choice, log entry 14). -/
def Obligations.MemoryStaysCanonical : Prop :=
  ∀ s t : State, CanonicalMemory s → step s = .next t → CanonicalMemory t

/-- In canonical form, memories that read alike are equal data, so comparing states compares
machines (the model's own choice, log entry 14). -/
def Obligations.CanonicalMemoriesReadingAlikeAreEqual : Prop :=
  ∀ s t : State, CanonicalMemory s → CanonicalMemory t → MemorySame s t → s.mem = t.mem

/-! ## Halting and the run loop -/

/-- A halted machine stays as it is, for any number of steps, and makes no access
(40_instruction_cycle.md section 3; that a step of a halted machine is the identity is decision D10,
log entry 9). -/
def Obligations.HaltedMachineHoldsItsState : Prop :=
  ∀ (n : Nat) (s : State), s.run = false →
    core.run n s = .next s ∧ s.stepAccesses = [] ∧ s.outputs.halted = true

/-- RUN falls only at a halting opcode and no step raises it (10_state.md, 44_halt.md; derived). -/
def Obligations.RunFallsOnlyAtAHaltingOpcode : Prop :=
  (∀ s t : State, s.run = true → step s = .next t →
    (t.run = false ↔ HaltingOpcode (s.readMem s.pc))) ∧
  (∀ (n : Nat) (s t : State), core.run n s = .next t → s.run = false → t.run = false)

/-- Every step keeps the invariant that a halted machine stands at a byte that halts
(40_instruction_cycle.md section 2, 60_exceptions.md section 1; derived). -/
def Obligations.HaltedMachineStandsAtAHaltingByte : Prop :=
  ∀ s t : State, HaltedAtHalt s → step s = .next t → HaltedAtHalt t

/-- What the inspector finds after a halting step (60_exceptions.md section 1, derived): HLT if the
byte at PC is 0xFF, and otherwise the unknown opcode itself. -/
def Obligations.InspectorRecoversTheCause : Prop :=
  ∀ s t : State, s.run = true → step s = .next t → t.run = false →
    (s.fetchInstr = .hlt → t.haltCause = some .hlt) ∧
    (∀ opcode, s.fetchInstr = .unknown opcode → t.haltCause = some (.unknownOpcode opcode)) ∧
    (s.fetchInstr = .hlt ∨ ∃ opcode, s.fetchInstr = .unknown opcode)

/-- A JMP to its own address, and a taken JZ to its own address, loop for ever: after any number of
steps the machine is where it was and still runs (43_control_transfer.md,
40_instruction_cycle.md section 3; derived). -/
def Obligations.JumpToItselfNeverHalts : Prop :=
  ∀ (n : Nat) (s : State), s.run = true → s.readMem (s.pc + 1) = s.pc →
    (s.readMem s.pc = 0x07 ∨ (s.readMem s.pc = 0x08 ∧ s.z = true)) →
    core.run n s = .next s

/-- The reserved stack pointer is read by no step (10_state.md section 1, derived; its width is
decision D9, log entry 8), and a step keeps it zero. -/
def Obligations.StackPointerIsNeverRead : Prop :=
  (∀ (s t : State) (v : Byte), step s = .next t →
    step { s with sp := v } = .next { t with sp := v }) ∧
  (∀ s t : State, StackPointerZero s → step s = .next t → StackPointerZero t)

/-! ## Reset and the host -/

/-- The reset values (10_state.md R32), under either policy on `addr_mode`. -/
def Obligations.ResetLeavesTheTable : Prop :=
  (∀ m : AddrMode,
    (∀ x : Byte, (State.resetIn m).readMem x = 0x00) ∧
    (State.resetIn m).a = 0x00 ∧ (State.resetIn m).b = 0x00 ∧ (State.resetIn m).pc = 0x00 ∧
    (State.resetIn m).sp = 0x00 ∧ (State.resetIn m).z = false ∧ (State.resetIn m).run = true ∧
    Access.read 0x00 ∈ (State.resetIn m).stepAccesses) ∧
  ∃ m : AddrMode, State.reset = State.resetIn m

/-- The state after reset meets the invariants every step keeps (10_state.md section 2, derived). The
canonical form of memory in the first clause is the model's own choice (log entry 14). -/
def Obligations.ResetMeetsTheInvariants : Prop :=
  ∀ m : AddrMode, CanonicalMemory (State.resetIn m) ∧ HaltedAtHalt (State.resetIn m) ∧
    StackPointerZero (State.resetIn m)

/-- An empty machine halts in one step at address 0x00, with everything else as reset left it
(30_encoding.md section 4, 70_reset_and_hazards.md section 2; derived). -/
def Obligations.EmptyMachineHaltsAtZero : Prop :=
  ∀ m : AddrMode, step (State.resetIn m) = .next { State.resetIn m with run := false }

/-- Reset wins over whatever the platform was doing, keeps nothing of it, and is idempotent; `run_en` =
0, however long, changes nothing (60_exceptions.md section 3, 70_reset_and_hazards.md section 1,
decision D13; 10_state.md section 3, decision D11; log entry 11). -/
def Obligations.ResetWinsAndRunEnableHolds : Prop :=
  ∀ (p q : Platform) (m m' : AddrMode) (moves : List HostMove) (n : Nat),
    p.moves moves = some q →
    p.moves (moves ++ [.reset m]) = some ⟨State.resetIn m, true⟩ ∧
    p.moves (moves ++ [.reset m', .reset m]) = p.moves (moves ++ [.reset m]) ∧
    p.moves (moves ++ List.replicate n (.tick false)) = some q

/-- The launch state (10_state.md section 2, derived): in the load window the host's writes, whatever
they are, leave the registers of reset and a memory in which each cell holds the last byte written
to it, or 0x00. That the host writes in the load window is decision D11 (log entry 11); the clause
on the canonical form of memory is the model's own choice (log entry 14). -/
def Obligations.LoadWindowGivesTheLaunchState : Prop :=
  ∀ (p : Platform) (m : AddrMode) (image : List (Byte × Byte)),
    ∃ q, p.moves (.reset m :: image.map fun cell => HostMove.write cell.1 cell.2) = some q ∧
      q.loadWindow = true ∧ q.core = (State.resetIn m).load image ∧
      { q.core with mem := [] } = State.resetIn m ∧ CanonicalMemory q.core ∧
      ∀ x : Byte, q.core.readMem x =
        ((image.reverse.find? fun cell => cell.1 == x).map Prod.snd).getD 0x00

/-- Every launch image is loadable (10_state.md section 2: `M0` is arbitrary). -/
def Obligations.EveryLaunchImageIsLoadable : Prop :=
  ∀ (m : AddrMode) (image : Byte → Byte), ∃ cells : List (Byte × Byte),
    ∀ x : Byte, ((State.resetIn m).load cells).readMem x = image x

/-- Between the first step and the halt the host has no write; after the halt it has one again
(10_state.md section 3 and 70_reset_and_hazards.md section 3, decision D11, log entry 11). -/
def Obligations.HostHasNoWriteDuringARun : Prop :=
  ∀ (p q : Platform) (addr v : Byte), p.move (.tick true) = some q →
    (q.core.run = true → q.move (.write addr v) = none) ∧
    (q.core.run = false → ∃ r, q.move (.write addr v) = some r ∧
      r.core.readMem addr = v ∧ MemorySameExcept addr q.core r.core)

/-! ## Encoding -/

/-- Decoding the encoding of any well-formed instruction gives it back with the rest of the bytes,
every operand at every value (30_encoding.md sections 1 to 3). -/
def Obligations.DecodeInvertsEncode : Prop :=
  ∀ (i : Instr) (rest : List Byte), i.wellFormed = true →
    decode (encode i ++ rest) = .ok (i, rest)

/-- What decodes is well-formed and its encoding is the bytes read: no two instructions share a word,
and the only lists refused are the empty one and an F2 opcode alone (30_encoding.md sections 1 to
4). -/
def Obligations.EncodeInvertsDecode : Prop :=
  (∀ (bytes rest : List Byte) (i : Instr), decode bytes = .ok (i, rest) →
    i.wellFormed = true ∧ encode i ++ rest = bytes) ∧
  (∀ (bytes : List Byte) (e : DecodeError), decode bytes = .error e →
    (bytes = [] ∧ e = .noOpcode) ∨
    (e = .noOperand ∧ ∃ op, bytes = [op] ∧ op ∈ [(0x01 : Byte), 0x02, 0x03, 0x04, 0x07, 0x08]))

/-- The unknown opcodes are exactly 0x00 and 0x09 to 0xFE, 247 values (30_encoding.md section 4;
that 0x06 is not among them is decision D1, log entry 4). -/
def Obligations.UnknownOpcodesAreExactly247 : Prop :=
  (∀ opcode operand : Byte,
    decodeFetched opcode operand = .unknown opcode ↔
      opcode = 0x00 ∨ (0x09 ≤ opcode.toNat ∧ opcode.toNat ≤ 0xFE)) ∧
  ((List.range 256).filter fun n =>
    decide (decodeFetched (BitVec.ofNat 8 n) 0x00 = .unknown (BitVec.ofNat 8 n))).length = 247

/-- Words written out from the opcode map of 30_encoding.md section 3 decode as it says. -/
def Obligations.WordsOfTheOpcodeMapDecode : Prop :=
  decode [0b00000001, 0x30] = .ok (.lda 0x30, []) ∧
  decode [0b00000010, 0x02] = .ok (.sta 0x02, []) ∧
  decode [0b00000101, 0x02] = .ok (.add, [0x02]) ∧
  decode [0b00001000, 0x09] = .ok (.jz 0x09, []) ∧
  decode [0b11111111] = .ok (.hlt, []) ∧
  decode [0b00001001] = .ok (.unknown 0x09, [])

/-- An instruction placed at PC is the one the next step runs (the model's loader of one word, log
entry 3). -/
def Obligations.PlacedInstructionIsTheNextStep : Prop :=
  ∀ (s : State) (i : Instr) (nbits w : Nat), decodeTableWord nbits w = some i →
    step (s.withFetchWord nbits w) = exec i (s.withFetchWord nbits w) ∧
    (s.withFetchWord nbits w).pc = s.pc ∧
    MemorySameExcept (s.pc + 1) (s.writeMem s.pc (tableByte nbits w 0)) (s.withFetchWord nbits w)

/-- A listing assembles, from an address, to the bytes of its instructions one after another
(30_encoding.md section 5, decision D14, log entry 12): one instruction laid at PC of a running
machine is the one it runs. -/
def Obligations.AssembledInstructionRuns : Prop :=
  ∀ (s : State) (i : Instr), s.run = true → i.wellFormed = true →
    step (s.load (assemble s.pc [.instr i])) = exec i (s.load (assemble s.pc [.instr i]))
end

