-- ==== Sys2Proof/Laws/Memory.lean ====
section
/-! SUPPORT. What memory reads and writes do: read after write, and the canonical form. -/

namespace Sys2Proof.Machine

open Sys2Proof

theorem Memory.read_filter_ne (m : Memory) (x y : Nat) :
    Memory.read (m.filter (fun c => decide (c.1 ≠ x))) y =
      if y = x then Config.unlistedByte else Memory.read m y := by
  induction m with
  | nil => simp [Memory.read]
  | cons c rest ih =>
    by_cases hc : c.1 = x <;> by_cases hy : y = x <;> by_cases hcy : c.1 = y <;>
      simp_all [Memory.read]

theorem Memory.read_insertCell (m : Memory) (x y : Nat) (v : Byte) (h : ∀ c ∈ m, c.1 ≠ x) :
    Memory.read (Memory.insertCell m (x, v)) y = if y = x then v else Memory.read m y := by
  induction m with
  | nil => simp [Memory.insertCell, Memory.read, eq_comm]
  | cons c rest ih =>
    have hc : c.1 ≠ x := h c (by simp)
    have ih := ih fun d hd => h d (by simp [hd])
    unfold Memory.insertCell
    split
    · simp only [Memory.read, ih]
      by_cases hy : y = x <;> simp_all
    · simp [Memory.read, eq_comm]

/-- A read after a write, at any two addresses of any memory list. -/
theorem Memory.read_write (m : Memory) (x y : Nat) (v : Byte) :
    Memory.read (Memory.write m x v) y = if y = x then v else Memory.read m y := by
  unfold Memory.write
  split
  · next h => rw [Memory.read_filter_ne, h]
  · rw [Memory.read_insertCell _ _ _ _ (by simp), Memory.read_filter_ne]
    split <;> rfl

theorem Memory.mem_insertCell (m : Memory) (new c : Host.Cell) :
    c ∈ Memory.insertCell m new ↔ c = new ∨ c ∈ m := by
  induction m with
  | nil => simp [Memory.insertCell]
  | cons d rest ih =>
    unfold Memory.insertCell
    split
    · simp only [List.mem_cons, ih]
      exact ⟨fun h => by tauto, fun h => by tauto⟩
    · simp

theorem Memory.pairwise_insertCell (m : Memory) (new : Host.Cell)
    (hm : m.Pairwise (fun c d => c.1 < d.1)) (hx : ∀ c ∈ m, c.1 ≠ new.1) :
    (Memory.insertCell m new).Pairwise (fun c d => c.1 < d.1) := by
  induction m with
  | nil => simp [Memory.insertCell]
  | cons d rest ih =>
    obtain ⟨hd, hrest⟩ := List.pairwise_cons.mp hm
    unfold Memory.insertCell
    split
    · next hlt =>
      refine List.pairwise_cons.mpr ⟨fun c hc => ?_, ih hrest fun c hc => hx c (by simp [hc])⟩
      rcases (Memory.mem_insertCell _ _ _).mp hc with rfl | hc
      · exact hlt
      · exact hd c hc
    · next hge =>
      have hne := hx d (by simp)
      refine List.pairwise_cons.mpr ⟨fun c hc => ?_, hm⟩
      rcases List.mem_cons.mp hc with rfl | hc
      · omega
      · have := hd c hc
        omega

theorem Memory.wf_nil : Memory.wf [] := by
  simp [Memory.wf]

/-- A write inside the address space keeps the canonical form. -/
theorem Memory.wf_write (m : Memory) (x : Nat) (v : Byte) (hm : Memory.wf m) (hx : x < 256) :
    Memory.wf (Memory.write m x v) := by
  obtain ⟨hsorted, hcells⟩ := hm
  have hf : (m.filter (fun c => decide (c.1 ≠ x))).Pairwise (fun c d => c.1 < d.1) :=
    hsorted.filter _
  unfold Memory.write
  split
  · exact ⟨hf, fun c hc => hcells c (List.mem_filter.mp hc).1⟩
  · next hv =>
    refine ⟨Memory.pairwise_insertCell _ _ hf (by simp), fun c hc => ?_⟩
    rcases (Memory.mem_insertCell _ _ _).mp hc with rfl | hc
    · exact ⟨hx, hv⟩
    · exact hcells c (List.mem_filter.mp hc).1

/-- The memory of a state after a write of one cell. -/
theorem State.readMem_writeMem (s : State) (x y v : Byte) :
    (s.writeMem x v).readMem y = if y = x then v else s.readMem y := by
  simp only [State.readMem, State.writeMem, Memory.read_write, BitVec.toNat_inj]

theorem State.wf_writeMem (s : State) (x v : Byte) (h : Memory.wf s.mem) :
    Memory.wf (s.writeMem x v).mem :=
  Memory.wf_write s.mem x.toNat v h x.isLt

end Sys2Proof.Machine
end

