-- ==== Sys2Proof/Laws/State.lean ====
section
/-! SUPPORT. One lemma per field per named update of the state, so that no proof unfolds a record
update. -/

namespace Sys2Proof.Machine

open Sys2Proof

@[simp] theorem State.setA_mem (s : State) (v : Byte) : (s.setA v).mem = s.mem := rfl
@[simp] theorem State.setA_a (s : State) (v : Byte) : (s.setA v).a = v := rfl
@[simp] theorem State.setA_b (s : State) (v : Byte) : (s.setA v).b = s.b := rfl
@[simp] theorem State.setA_pc (s : State) (v : Byte) : (s.setA v).pc = s.pc := rfl
@[simp] theorem State.setA_z (s : State) (v : Byte) : (s.setA v).z = s.z := rfl
@[simp] theorem State.setA_run (s : State) (v : Byte) : (s.setA v).run = s.run := rfl
@[simp] theorem State.setA_sp (s : State) (v : Byte) : (s.setA v).sp = s.sp := rfl
@[simp] theorem State.setA_addrMode (s : State) (v : Byte) : (s.setA v).addrMode = s.addrMode := rfl

@[simp] theorem State.setB_mem (s : State) (v : Byte) : (s.setB v).mem = s.mem := rfl
@[simp] theorem State.setB_a (s : State) (v : Byte) : (s.setB v).a = s.a := rfl
@[simp] theorem State.setB_b (s : State) (v : Byte) : (s.setB v).b = v := rfl
@[simp] theorem State.setB_pc (s : State) (v : Byte) : (s.setB v).pc = s.pc := rfl
@[simp] theorem State.setB_z (s : State) (v : Byte) : (s.setB v).z = s.z := rfl
@[simp] theorem State.setB_run (s : State) (v : Byte) : (s.setB v).run = s.run := rfl
@[simp] theorem State.setB_sp (s : State) (v : Byte) : (s.setB v).sp = s.sp := rfl
@[simp] theorem State.setB_addrMode (s : State) (v : Byte) : (s.setB v).addrMode = s.addrMode := rfl

@[simp] theorem State.setZ_mem (s : State) (v : Bool) : (s.setZ v).mem = s.mem := rfl
@[simp] theorem State.setZ_a (s : State) (v : Bool) : (s.setZ v).a = s.a := rfl
@[simp] theorem State.setZ_b (s : State) (v : Bool) : (s.setZ v).b = s.b := rfl
@[simp] theorem State.setZ_pc (s : State) (v : Bool) : (s.setZ v).pc = s.pc := rfl
@[simp] theorem State.setZ_z (s : State) (v : Bool) : (s.setZ v).z = v := rfl
@[simp] theorem State.setZ_run (s : State) (v : Bool) : (s.setZ v).run = s.run := rfl
@[simp] theorem State.setZ_sp (s : State) (v : Bool) : (s.setZ v).sp = s.sp := rfl
@[simp] theorem State.setZ_addrMode (s : State) (v : Bool) : (s.setZ v).addrMode = s.addrMode := rfl

@[simp] theorem State.setPc_mem (s : State) (v : Byte) : (s.setPc v).mem = s.mem := rfl
@[simp] theorem State.setPc_a (s : State) (v : Byte) : (s.setPc v).a = s.a := rfl
@[simp] theorem State.setPc_b (s : State) (v : Byte) : (s.setPc v).b = s.b := rfl
@[simp] theorem State.setPc_pc (s : State) (v : Byte) : (s.setPc v).pc = v := rfl
@[simp] theorem State.setPc_z (s : State) (v : Byte) : (s.setPc v).z = s.z := rfl
@[simp] theorem State.setPc_run (s : State) (v : Byte) : (s.setPc v).run = s.run := rfl
@[simp] theorem State.setPc_sp (s : State) (v : Byte) : (s.setPc v).sp = s.sp := rfl
@[simp] theorem State.setPc_addrMode (s : State) (v : Byte) : (s.setPc v).addrMode = s.addrMode := rfl

@[simp] theorem State.advance_mem (s : State) (w : Byte) : (s.advance w).mem = s.mem := rfl
@[simp] theorem State.advance_a (s : State) (w : Byte) : (s.advance w).a = s.a := rfl
@[simp] theorem State.advance_b (s : State) (w : Byte) : (s.advance w).b = s.b := rfl
@[simp] theorem State.advance_pc (s : State) (w : Byte) : (s.advance w).pc = s.pc + w := rfl
@[simp] theorem State.advance_z (s : State) (w : Byte) : (s.advance w).z = s.z := rfl
@[simp] theorem State.advance_run (s : State) (w : Byte) : (s.advance w).run = s.run := rfl
@[simp] theorem State.advance_sp (s : State) (w : Byte) : (s.advance w).sp = s.sp := rfl
@[simp] theorem State.advance_addrMode (s : State) (w : Byte) : (s.advance w).addrMode = s.addrMode := rfl

@[simp] theorem State.halt_mem (s : State) : (s.halt).mem = s.mem := rfl
@[simp] theorem State.halt_a (s : State) : (s.halt).a = s.a := rfl
@[simp] theorem State.halt_b (s : State) : (s.halt).b = s.b := rfl
@[simp] theorem State.halt_pc (s : State) : (s.halt).pc = s.pc := rfl
@[simp] theorem State.halt_z (s : State) : (s.halt).z = s.z := rfl
@[simp] theorem State.halt_run (s : State) : (s.halt).run = false := rfl
@[simp] theorem State.halt_sp (s : State) : (s.halt).sp = s.sp := rfl
@[simp] theorem State.halt_addrMode (s : State) : (s.halt).addrMode = s.addrMode := rfl

@[simp] theorem State.writeMem_mem (s : State) (x v : Byte) : (s.writeMem x v).mem = Memory.write s.mem x.toNat v := rfl
@[simp] theorem State.writeMem_a (s : State) (x v : Byte) : (s.writeMem x v).a = s.a := rfl
@[simp] theorem State.writeMem_b (s : State) (x v : Byte) : (s.writeMem x v).b = s.b := rfl
@[simp] theorem State.writeMem_pc (s : State) (x v : Byte) : (s.writeMem x v).pc = s.pc := rfl
@[simp] theorem State.writeMem_z (s : State) (x v : Byte) : (s.writeMem x v).z = s.z := rfl
@[simp] theorem State.writeMem_run (s : State) (x v : Byte) : (s.writeMem x v).run = s.run := rfl
@[simp] theorem State.writeMem_sp (s : State) (x v : Byte) : (s.writeMem x v).sp = s.sp := rfl
@[simp] theorem State.writeMem_addrMode (s : State) (x v : Byte) : (s.writeMem x v).addrMode = s.addrMode := rfl

@[simp] theorem State.writeResult_mem (s : State) (r : Byte) : (s.writeResult r).mem = s.mem := rfl
@[simp] theorem State.writeResult_a (s : State) (r : Byte) : (s.writeResult r).a = r := rfl
@[simp] theorem State.writeResult_b (s : State) (r : Byte) : (s.writeResult r).b = s.b := rfl
@[simp] theorem State.writeResult_pc (s : State) (r : Byte) : (s.writeResult r).pc = s.pc := rfl
@[simp] theorem State.writeResult_z (s : State) (r : Byte) : (s.writeResult r).z = zeroFlag r := rfl
@[simp] theorem State.writeResult_run (s : State) (r : Byte) : (s.writeResult r).run = s.run := rfl
@[simp] theorem State.writeResult_sp (s : State) (r : Byte) : (s.writeResult r).sp = s.sp := rfl
@[simp] theorem State.writeResult_addrMode (s : State) (r : Byte) : (s.writeResult r).addrMode = s.addrMode := rfl

@[simp] theorem State.storeOperand_mem (s : State) (x v : Byte) : (s.storeOperand x v).mem = Memory.write s.mem (s.ea x).toNat v := rfl
@[simp] theorem State.storeOperand_a (s : State) (x v : Byte) : (s.storeOperand x v).a = s.a := rfl
@[simp] theorem State.storeOperand_b (s : State) (x v : Byte) : (s.storeOperand x v).b = s.b := rfl
@[simp] theorem State.storeOperand_pc (s : State) (x v : Byte) : (s.storeOperand x v).pc = s.pc := rfl
@[simp] theorem State.storeOperand_z (s : State) (x v : Byte) : (s.storeOperand x v).z = s.z := rfl
@[simp] theorem State.storeOperand_run (s : State) (x v : Byte) : (s.storeOperand x v).run = s.run := rfl
@[simp] theorem State.storeOperand_sp (s : State) (x v : Byte) : (s.storeOperand x v).sp = s.sp := rfl
@[simp] theorem State.storeOperand_addrMode (s : State) (x v : Byte) : (s.storeOperand x v).addrMode = s.addrMode := rfl

end Sys2Proof.Machine
end

