-- ==== Sys2Proof/Laws/Exec.lean ====
section
/-! SUPPORT. What each meaning answers, once, and what one step can do. -/

namespace Sys2Proof.Machine

open Sys2Proof

theorem State.readMem_congr (s t : State) (h : t.mem = s.mem) (x : Byte) :
    t.readMem x = s.readMem x := by
  simp only [State.readMem, h]

/-- The next state of an instruction: `exec` answers it on every state (R100). -/
def nextState (i : Instr) (s : State) : State :=
  match i with
  | .lda operand => (s.setA (s.loadOperand operand)).advance 2
  | .sta operand => (s.storeOperand operand s.a).advance 2
  | .ldb operand => (s.setB (s.loadOperand operand)).advance 2
  | .stb operand => (s.storeOperand operand s.b).advance 2
  | .add => (s.writeResult (aluAdd s.a s.b)).advance 1
  | .sub => (s.writeResult (aluSub s.a s.b)).advance 1
  | .jmp operand => s.setPc operand
  | .jz operand => if s.z then s.setPc operand else s.advance 2
  | .hlt => s.halt
  | .unknown _ => s.halt

theorem exec_eq (i : Instr) (s : State) : exec i s = .next (nextState i s) := by
  cases i <;> rfl

theorem step_running (s : State) (h : s.run = true) :
    step s = .next (nextState s.fetchInstr s) := by
  simp only [step, State.stepEnabled, h, if_true, exec_eq]

theorem step_halted (s : State) (h : s.run = false) : step s = .next s := by
  simp [step, State.stepEnabled, h]

/-- All that a step that answers a next state can have done. -/
theorem step_cases {s t : State} (h : step s = .next t) :
    (s.run = false ∧ t = s) ∨ (s.run = true ∧ t = nextState s.fetchInstr s) := by
  cases hr : s.run
  · rw [step_halted s hr] at h
    exact .inl ⟨rfl, by injection h with h; exact h.symm⟩
  · rw [step_running s hr] at h
    exact .inr ⟨rfl, by injection h with h; exact h.symm⟩

/-- The bytes under which each instruction is fetched. -/
theorem decodeFetched_cases (opcode operand : Byte) :
    (opcode = 0x01 ∧ decodeFetched opcode operand = .lda operand) ∨
    (opcode = 0x02 ∧ decodeFetched opcode operand = .sta operand) ∨
    (opcode = 0x03 ∧ decodeFetched opcode operand = .ldb operand) ∨
    (opcode = 0x04 ∧ decodeFetched opcode operand = .stb operand) ∨
    (opcode = 0x05 ∧ decodeFetched opcode operand = .add) ∨
    (opcode = 0x06 ∧ decodeFetched opcode operand = .sub) ∨
    (opcode = 0x07 ∧ decodeFetched opcode operand = .jmp operand) ∨
    (opcode = 0x08 ∧ decodeFetched opcode operand = .jz operand) ∨
    (opcode = 0xFF ∧ decodeFetched opcode operand = .hlt) ∨
    (opcode ∉ definedOpcodes ∧ decodeFetched opcode operand = .unknown opcode) := by
  by_cases h : opcode ∈ definedOpcodes
  · simp only [definedOpcodes, List.mem_cons, List.not_mem_nil, or_false] at h
    rcases h with rfl | rfl | rfl | rfl | rfl | rfl | rfl | rfl | rfl <;>
      simp [decodeFetched, decodeIn, Config.subImplemented]
  · have h' := h
    simp only [definedOpcodes, List.mem_cons, List.not_mem_nil, or_false, not_or] at h'
    refine .inr (.inr (.inr (.inr (.inr (.inr (.inr (.inr (.inr ⟨h, ?_⟩))))))))
    unfold decodeFetched decodeIn
    split <;> first | rfl | simp_all

end Sys2Proof.Machine
end

