-- ==== Sys2Proof/Laws/Operands.lean ====
section
/-! SUPPORT. The ALU and the effective address as numbers. -/

namespace Sys2Proof.Machine

open Sys2Proof

theorem aluAdd_toNat (x y : Byte) : (aluAdd x y).toNat = (x.toNat + y.toNat) % 256 := by
  simp [aluAdd]

theorem aluSub_toNat (x y : Byte) : (aluSub x y).toNat = (x.toNat + 256 - y.toNat) % 256 := by
  have hx := x.isLt
  have hy := y.isLt
  simp only [aluSub, BitVec.toNat_ofInt]
  omega

theorem effectiveAddress_direct (op : Byte) : effectiveAddress .direct op = op := rfl

theorem effectiveAddress_offset_toNat (op : Byte) :
    (effectiveAddress .offset op).toNat = (op.toNat + 128) % 256 := by
  simp [effectiveAddress, Config.offsetBase]

theorem zeroFlag_eq_true (r : Byte) : zeroFlag r = true ↔ r.toNat = 0 := by
  simp [zeroFlag, ← BitVec.toNat_inj]

end Sys2Proof.Machine
end

