-- ==== Sys2Proof/Laws/PerInstr.lean ====
section
/-! SUPPORT. One lemma per constructor for each family of LAWS.json. -/

/-- The opcode byte alone selects the instruction, whatever byte follows (30_encoding.md R83, R104):
decoding a well-formed instruction's opcode with any next byte gives an instruction of the same
opcode and the same length. -/
def Sys2Proof.Laws.OpcodeSelects.Statement (i : Sys2Proof.Instr) : Prop :=
  i.wellFormed = true → ∀ next : Sys2Proof.Byte,
    (Sys2Proof.decodeFetched i.opcode next).opcode = i.opcode ∧
      (Sys2Proof.decodeFetched i.opcode next).byteCount = i.byteCount

namespace Sys2Proof.Laws

theorem OpcodeSelects.lda (operand : Byte) : OpcodeSelects.Statement (.lda operand) :=
  fun _ _ => ⟨rfl, rfl⟩

theorem OpcodeSelects.sta (operand : Byte) : OpcodeSelects.Statement (.sta operand) :=
  fun _ _ => ⟨rfl, rfl⟩

theorem OpcodeSelects.ldb (operand : Byte) : OpcodeSelects.Statement (.ldb operand) :=
  fun _ _ => ⟨rfl, rfl⟩

theorem OpcodeSelects.stb (operand : Byte) : OpcodeSelects.Statement (.stb operand) :=
  fun _ _ => ⟨rfl, rfl⟩

theorem OpcodeSelects.add : OpcodeSelects.Statement .add :=
  fun _ _ => ⟨rfl, rfl⟩

theorem OpcodeSelects.sub : OpcodeSelects.Statement .sub :=
  fun _ _ => ⟨rfl, rfl⟩

theorem OpcodeSelects.jmp (operand : Byte) : OpcodeSelects.Statement (.jmp operand) :=
  fun _ _ => ⟨rfl, rfl⟩

theorem OpcodeSelects.jz (operand : Byte) : OpcodeSelects.Statement (.jz operand) :=
  fun _ _ => ⟨rfl, rfl⟩

theorem OpcodeSelects.hlt : OpcodeSelects.Statement .hlt :=
  fun _ _ => ⟨rfl, rfl⟩

theorem OpcodeSelects.unknown (opcode : Byte) : OpcodeSelects.Statement (.unknown opcode) := by
  intro h next
  simp only [Instr.wellFormed, definedOpcodes, List.contains_eq_mem, List.mem_cons,
    List.not_mem_nil, or_false, Bool.not_eq_true', decide_eq_false_iff_not, not_or] at h
  have hd : decodeFetched opcode next = .unknown opcode := by
    unfold decodeFetched decodeIn
    split <;> first | rfl | simp_all
  simp only [Instr.opcode, hd, and_self]

end Sys2Proof.Laws
end

