-- ==== Sys2Proof/Laws/Ports.lean ====
section
/-! SUPPORT. What a run, a load and a list of host moves do, one step at a time. -/

namespace Sys2Proof.Machine

open Sys2Proof

theorem run_succ (n : Nat) (s t : State) (h : step s = .next t) :
    core.run (n + 1) s = core.run n t := by
  have hcore : core.step s = .next t := h
  simp only [Host.Core.run]
  rw [hcore]

theorem load_cons (s : State) (cell : Byte × Byte) (rest : List (Byte × Byte)) :
    s.load (cell :: rest) = (s.writeMem cell.1 cell.2).load rest := rfl

/-- A load writes memory alone. -/
theorem load_registers (s : State) (image : List (Byte × Byte)) :
    { s.load image with mem := s.mem } = s := by
  have h : ∀ t : State, { t.load image with mem := [] } = { t with mem := [] } := by
    induction image with
    | nil => exact fun _ => rfl
    | cons cell rest ih => exact fun t => (ih (t.writeMem cell.1 cell.2)).trans rfl
  exact congrArg (fun t : State => { t with mem := s.mem }) (h s)

theorem wf_load (s : State) (image : List (Byte × Byte)) (h : Memory.wf s.mem) :
    Memory.wf (s.load image).mem := by
  induction image generalizing s with
  | nil => exact h
  | cons cell rest ih => exact ih _ (State.wf_writeMem s _ _ h)

theorem moves_append (p : Platform) (first rest : List HostMove) :
    p.moves (first ++ rest) = (p.moves first).bind fun q => q.moves rest := by
  induction first generalizing p with
  | nil => rfl
  | cons m first ih =>
    simp only [List.cons_append, Platform.moves]
    split
    · exact ih _
    · rfl

end Sys2Proof.Machine
end

