-- ==== Sys2Proof/Tests/Slice0.lean ====
section
/-! SUPPORT. Tests of one step or one word each, with expected values from spec/95_test_vectors.md
(its row is named) or from the encoding tables, and a witness for the hypotheses of every statement
that has some. -/

namespace Sys2Proof.Tests

open Sys2Proof Sys2Proof.Machine

/-- A running state: the reset state with these registers and these cells. -/
def sample (mode : AddrMode) (a b pc : Byte) (z : Bool) (cells : List (Byte × Byte)) : State :=
  { State.resetIn mode with a := a, b := b, pc := pc, z := z }.load cells

/-- Observe the next state of an outcome; none for a stop. -/
def after {α : Type} (o : Host.Outcome State Fault Refusal) (f : State → α) : Option α :=
  match o with
  | .next t => some (f t)
  | .fault _ => none
  | .refused _ => none

/-! ## Well-formedness -/

/-- A defined opcode is no unknown opcode (R86). -/
theorem test_unknown_of_defined_is_ill_formed :
    ∀ opcode ∈ definedOpcodes, (Instr.unknown opcode).wellFormed = false := by decide

theorem test_unknown_neighbours_are_well_formed :
    ∀ opcode ∈ [(0x00 : Byte), 0x09, 0xFE], (Instr.unknown opcode).wellFormed = true := by decide

/-! ## Words written out bit by bit from 30_encoding.md R81, R82, R85 -/

theorem test_decode_lda : decode [0b00000001, 0b00110000] = .ok (.lda 0x30, []) := rfl
theorem test_decode_sta : decode [0b00000010, 0b10000101] = .ok (.sta 0x85, []) := rfl
theorem test_decode_ldb : decode [0b00000011, 0b00000001] = .ok (.ldb 0x01, []) := rfl
theorem test_decode_stb : decode [0b00000100, 0b01100000] = .ok (.stb 0x60, []) := rfl
theorem test_decode_add : decode [0b00000101, 0b00000010] = .ok (.add, [0x02]) := rfl
theorem test_decode_sub : decode [0b00000110] = .ok (.sub, []) := rfl
theorem test_decode_jmp : decode [0b00000111, 0b11111111] = .ok (.jmp 0xFF, []) := rfl
theorem test_decode_jz : decode [0b00001000, 0b00001001] = .ok (.jz 0x09, []) := rfl
theorem test_decode_hlt : decode [0b11111111] = .ok (.hlt, []) := rfl
theorem test_decode_unknown :
    decode [0b00000000] = .ok (.unknown 0x00, []) ∧ decode [0b11111110] = .ok (.unknown 0xFE, []) :=
  ⟨rfl, rfl⟩

theorem test_decode_truncated :
    decode [] = .error .noOpcode ∧ decode [0b00000001] = .error .noOperand := ⟨rfl, rfl⟩

/-- The table's row LDA, operand byte 0x30 in bits 15 to 8. -/
theorem test_decodeTableWord_lda : decodeTableWord 16 0x3001 = some (.lda 0x30) := rfl

/-- Bits above `nbits` read 0. -/
theorem test_decodeTableWord_short : decodeTableWord 8 0x3001 = some (.lda 0x00) := rfl

/-! ## The effective address: the table of 95_test_vectors.md 2.1 -/

theorem test_ea_direct :
    [0x00, 0x30, 0x7F, 0x80, 0xFF].map (effectiveAddress .direct) =
      [0x00, 0x30, 0x7F, 0x80, 0xFF] := by decide

theorem test_ea_offset :
    [0x00, 0x01, 0x02, 0x7F, 0x80, 0x85, 0xFF].map (effectiveAddress .offset) =
      [0x80, 0x81, 0x82, 0xFF, 0x00, 0x05, 0x7F] := by decide

/-! ## Loads and stores: 95_test_vectors.md 2.2 -/

/-- L5: the operand names the LDA's own opcode byte. -/
theorem test_lda_offset_own_opcode :
    after (step (sample .offset 0x11 0x22 0x10 false [(0x10, 0x01), (0x11, 0x90)]))
      (fun t => (t.a, t.b, t.pc, t.z)) = some (0x01, 0x22, 0x12, false) := by decide

/-- L14: the opcode at 0xFF, the operand from 0x00. -/
theorem test_lda_at_top_wraps :
    after (step (sample .direct 0x11 0x22 0xFF false [(0xFF, 0x01), (0x00, 0x30), (0x30, 0x05)]))
      (fun t => (t.a, t.pc)) = some (0x05, 0x01) := by decide

/-- L11: STA overwrites its own opcode byte and still completes as STA. -/
theorem test_sta_offset_own_opcode :
    after (step (sample .offset 0x11 0x22 0x05 false [(0x05, 0x02), (0x06, 0x85)]))
      (fun t => (t.readMem 0x05, t.readMem 0x06, t.a, t.pc)) =
      some (0x11, 0x85, 0x11, 0x07) := by decide

/-- L15: STA overwrites its own operand byte after it was fetched. -/
theorem test_sta_own_operand :
    after (step (sample .direct 0x11 0x22 0x00 false [(0x00, 0x02), (0x01, 0x01)]))
      (fun t => (t.readMem 0x00, t.readMem 0x01, t.pc)) = some (0x02, 0x11, 0x02) := by decide

/-- L8. -/
theorem test_ldb_offset :
    after (step (sample .offset 0x11 0x22 0x02 false [(0x02, 0x03), (0x03, 0x01), (0x81, 0x03)]))
      (fun t => (t.a, t.b, t.pc)) = some (0x11, 0x03, 0x04) := by decide

/-- L12. -/
theorem test_stb_direct :
    after (step (sample .direct 0x11 0x22 0x00 true [(0x00, 0x04), (0x01, 0x60)]))
      (fun t => (t.readMem 0x60, t.b, t.pc, t.z)) = some (0x22, 0x22, 0x02, true) := by decide

/-! ## Arithmetic: 95_test_vectors.md 2.3 -/

/-- A4, and A3 (the source's overflow scenario S3). -/
theorem test_add_wraps :
    after (step (sample .direct 0xFF 0xFF 0x20 true [(0x20, 0x05)]))
      (fun t => (t.a, t.b, t.z, t.pc)) = some (0xFE, 0xFF, false, 0x21) ∧
    after (step (sample .direct 0xFF 0x01 0x20 false [(0x20, 0x05)]))
      (fun t => (t.a, t.z)) = some (0x00, true) := by decide

/-- ADD at 0xFF: PC wraps to 0x00. -/
theorem test_add_at_top_wraps :
    after (step (sample .direct 0x01 0x01 0xFF false [(0xFF, 0x05)]))
      (fun t => (t.a, t.pc)) = some (0x02, 0x00) := by decide

/-- B8 and B1: the left operand is A. -/
theorem test_sub_borrows :
    after (step (sample .direct 0x05 0x08 0x20 true [(0x20, 0x06)]))
      (fun t => (t.a, t.b, t.z, t.pc)) = some (0xFD, 0x08, false, 0x21) ∧
    after (step (sample .direct 0x03 0x01 0x20 false [(0x20, 0x06)]))
      (fun t => (t.a, t.z)) = some (0x02, false) := by decide

/-- B7. -/
theorem test_sub_equal_sets_zero :
    after (step (sample .direct 0xFF 0xFF 0x20 false [(0x20, 0x06)]))
      (fun t => (t.a, t.z)) = some (0x00, true) := by decide

/-! ## Control transfer: 95_test_vectors.md 2.4 -/

/-- J5: a target is not offset, also in offset mode. -/
theorem test_jmp_offset_literal :
    after (step (sample .offset 0x00 0x00 0x10 false [(0x10, 0x07), (0x11, 0x80)]))
      (fun t => (t.pc, t.z)) = some (0x80, false) := by decide

/-- J6. -/
theorem test_jmp_at_top :
    after (step (sample .direct 0x00 0x00 0xFF false [(0xFF, 0x07), (0x00, 0x44)]))
      (fun t => t.pc) = some 0x44 := by decide

/-- J9: not taken, wrap. -/
theorem test_jz_not_taken_wraps :
    after (step (sample .direct 0x00 0x00 0xFE false [(0xFE, 0x08), (0xFF, 0x40)]))
      (fun t => (t.pc, t.z)) = some (0x00, false) := by decide

/-- J11: taken, the operand from 0x00. -/
theorem test_jz_taken_at_top :
    after (step (sample .direct 0x00 0x00 0xFF true [(0xFF, 0x08), (0x00, 0x40)]))
      (fun t => (t.pc, t.z)) = some (0x40, true) := by decide

/-! ## Halting: 95_test_vectors.md 2.5 -/

/-- H1. -/
theorem test_hlt :
    step (sample .direct 0x12 0x34 0x07 true [(0x07, 0xFF)]) =
      .next { sample .direct 0x12 0x34 0x07 true [(0x07, 0xFF)] with run := false } := rfl

/-- H3 and H4. -/
theorem test_unknown :
    step (sample .direct 0x12 0x34 0x0C true [(0x0C, 0x09)]) =
      .next { sample .direct 0x12 0x34 0x0C true [(0x0C, 0x09)] with run := false } ∧
    step (sample .direct 0x12 0x34 0x0C true [(0x0C, 0xFE)]) =
      .next { sample .direct 0x12 0x34 0x0C true [(0x0C, 0xFE)] with run := false } := ⟨rfl, rfl⟩

/-- R202: the inspector's reading after each. -/
theorem test_haltCause :
    (after (step (sample .direct 0 0 0x07 true [(0x07, 0xFF)])) State.haltCause,
     after (step (sample .direct 0 0 0x0C true [(0x0C, 0x09)])) State.haltCause) =
      (some (some .hlt), some (some (.unknownOpcode 0x09))) := by decide

/-! ## Memory, ports, listing -/

/-- A write of the byte an unlisted cell reads as lists nothing. -/
theorem test_write_zero_unlists :
    ((State.reset.writeMem 0x10 0x99).writeMem 0x10 0x00).mem = [] := by decide

theorem test_write_sorts :
    ((State.reset.writeMem 0x20 0x02).writeMem 0x10 0x01).mem = [(0x10, 0x01), (0x20, 0x02)] := by
  decide

/-- R36: one write for STA, beside the two fetches. -/
theorem test_stepAccesses_sta :
    (sample .offset 0x11 0x22 0x05 false [(0x05, 0x02), (0x06, 0x02)]).stepAccesses =
      [.read 0x05, .read 0x06, .write 0x82 0x11] := by decide

/-- The first four lines of program P1 with its `.org` (95_test_vectors.md part 3). -/
theorem test_assemble_P1 :
    assemble 0x00 [.instr (.lda 0x20), .instr (.ldb 0x21), .instr .sub, .instr (.jz 0x09),
      .org 0x20, .byte 0x03] =
      [(0x00, 0x01), (0x01, 0x20), (0x02, 0x03), (0x03, 0x21), (0x04, 0x06), (0x05, 0x08),
       (0x06, 0x09), (0x20, 0x03)] := by decide

/-- R90. -/
theorem test_line_text : (Line.instr (.lda 0x2A)).text = "LDA 0x2A" := by decide

/-! ## Witnesses: states and operands that meet the hypotheses of each statement -/

/-- A running machine in mode `m` with these two bytes at PC = 0x10. -/
def running (m : AddrMode) (opcode operand : Byte) : State :=
  { State.resetIn m with a := 0x11, b := 0x22, pc := 0x10 }.placeFetched opcode operand

/-- The hypotheses of every statement about a running step, at every opcode byte (so in every clause
that names one), every operand and both modes: LdaLoadsAccumulator, StaStoresAccumulator, LdbLoadsB,
StbStoresB, AddWrapsAndSetsZero, SubWrapsAndSetsZero, JmpGoesToOperand, JzBranchesOnZero,
HltClearsRunOnly, StepIsTotal, StepChangesOnlyWhatItsRuleWrites, StepRefinesThePseudocode,
StepMakesOnlyItsAccesses, PolicySelectsOnlyTheAddress, ZeroFlagTracksTheLastResult,
RunFallsOnlyAtAHaltingOpcode, StackPointerIsNeverRead. -/
theorem witness_running_step (m : AddrMode) (opcode operand : Byte) :
    (running m opcode operand).run = true ∧
    (running m opcode operand).readMem (running m opcode operand).pc = opcode ∧
    (running m opcode operand).readMem ((running m opcode operand).pc + 1) = operand ∧
    StackPointerZero (running m opcode operand) ∧
    ∃ t, step (running m opcode operand) = .next t := by
  refine ⟨rfl, ?_, ?_, rfl, _, step_running _ rfl⟩
  · change (State.writeMem _ _ _).readMem 0x10 = opcode
    rw [State.readMem_writeMem, if_neg (by show ¬ ((0x10 : Byte) = 0x10 + 1); decide),
      State.readMem_writeMem, if_pos rfl]
  · change (State.writeMem _ _ _).readMem 0x11 = operand
    rw [State.readMem_writeMem, if_pos (by show (0x11 : Byte) = 0x10 + 1; decide)]

/-- UnknownOpcodeHalts: both ranges, at their ends. -/
theorem witness_unknown_opcode :
    ∀ opcode ∈ [(0x00 : Byte), 0x09, 0xFE], (running .direct opcode 0).run = true ∧
      ((running .direct opcode 0).readMem (running .direct opcode 0).pc = 0x00 ∨
        (0x09 ≤ ((running .direct opcode 0).readMem (running .direct opcode 0).pc).toNat ∧
          ((running .direct opcode 0).readMem (running .direct opcode 0).pc).toNat ≤ 0xFE)) := by
  decide

/-- HaltingOpcode, at the ends of its ranges and just outside them. -/
theorem witness_halting_opcode :
    HaltingOpcode 0x00 ∧ HaltingOpcode 0x09 ∧ HaltingOpcode 0xFE ∧ HaltingOpcode 0xFF ∧
    ¬ HaltingOpcode 0x01 ∧ ¬ HaltingOpcode 0x08 := by
  unfold HaltingOpcode
  decide

/-- StepRunsTheDecodedInstruction: a one-byte and a two-byte instruction. -/
theorem witness_decoded_instruction :
    (Instr.add.wellFormed = true ∧ (running .direct 0x05 0x99).run = true ∧
      encode .add = [(running .direct 0x05 0x99).readMem (running .direct 0x05 0x99).pc]) ∧
    ((Instr.lda 0x30).wellFormed = true ∧ (running .offset 0x01 0x30).run = true ∧
      encode (.lda 0x30) = [(running .offset 0x01 0x30).readMem (running .offset 0x01 0x30).pc,
        (running .offset 0x01 0x30).readMem ((running .offset 0x01 0x30).pc + 1)]) := by decide

/-- StepDependsOnlyOnCellsRead: a memory that differs in a cell the LDA does not read. -/
theorem witness_cells_read :
    step (running .direct 0x01 0x30) = .next { running .direct 0x01 0x30 with a := 0, pc := 0x12 } ∧
    (∀ x : Byte, Access.read x ∈ (running .direct 0x01 0x30).stepAccesses →
      Memory.read [(0x10, 0x01), (0x11, 0x30), (0x77, 0x09)] x.toNat =
        (running .direct 0x01 0x30).readMem x) := ⟨rfl, by decide⟩

/-- EffectiveAddressFollowsThePolicy: each policy. -/
theorem witness_policies :
    (running .direct 0 0).addrMode = .direct ∧ (running .offset 0 0).addrMode = .offset := ⟨rfl, rfl⟩

/-- JumpTargetIsNeverOffset, AddHoldsForAllBytes: Z set, and the operands of A4. -/
theorem witness_zero_set_and_bytes :
    (sample .offset 0xFF 0xFF 0x20 true []).z = true ∧
    (sample .offset 0xFF 0xFF 0x20 true []).a = 0xFF ∧
    (sample .offset 0xFF 0xFF 0x20 true []).b = 0xFF := ⟨rfl, rfl, rfl⟩

/-- ZeroFlagPersistsBetweenArithmetic: two steps, an LDA and a not-taken JZ, Z false. -/
theorem witness_no_arithmetic :
    (∃ t, core.run 2 (sample .direct 0 0 0 false [(0, 0x01), (1, 0x30), (2, 0x08)]) = .next t) ∧
    ∀ k u, k < 2 →
      core.run k (sample .direct 0 0 0 false [(0, 0x01), (1, 0x30), (2, 0x08)]) = .next u →
      u.readMem u.pc ≠ 0x05 ∧ u.readMem u.pc ≠ 0x06 := by
  refine ⟨⟨_, rfl⟩, fun k u hk hu => ?_⟩
  match k, hk with
  | 0, _ => cases hu; decide
  | 1, _ => cases hu; decide

/-- SubAbsentMakes06Unknown: the neighbours of 0x06. -/
theorem witness_not_sub : (0x05 : Byte) ≠ 0x06 ∧ (0x07 : Byte) ≠ 0x06 := by decide

/-- StoreIsSeenByTheNextFetch: STA into the next opcode, STB into the next operand. -/
theorem witness_store_into_code :
    (running .direct 0x02 0x12).readMem 0x10 = 0x02 ∧
    (running .direct 0x02 0x12).ea 0x12 = (running .direct 0x02 0x12).pc + 2 ∧
    (running .direct 0x04 0x13).readMem 0x10 = 0x04 ∧
    (running .direct 0x04 0x13).ea 0x13 = (running .direct 0x04 0x13).pc + 2 + 1 := by decide

/-- LoadThenStoreCopiesACell: LDA and STA, then LDB and STB. -/
theorem witness_copy :
    let s := sample .offset 0 0 0 false [(0, 0x01), (1, 0x00), (2, 0x02), (3, 0x01), (0x80, 0x7E)]
    let u := sample .direct 0 0 0xFE false [(0xFE, 0x03), (0xFF, 0x40), (0, 0x04), (1, 0x41)]
    (s.run = true ∧ s.readMem s.pc = 0x01 ∧ s.readMem (s.pc + 2) = 0x02) ∧
    (u.run = true ∧ u.readMem u.pc = 0x03 ∧ u.readMem (u.pc + 2) = 0x04) := by decide

/-- MemoryStaysCanonical, CanonicalMemoriesReadingAlikeAreEqual: a canonical memory with cells. -/
theorem witness_canonical :
    Memory.wf (running .direct 0x02 0x50).mem ∧ (running .direct 0x02 0x50).mem ≠ [] ∧
    (∃ t, step (running .direct 0x02 0x50) = .next t) ∧
    MemorySame (running .direct 0x02 0x50) { running .direct 0x02 0x50 with a := 0x77 } :=
  ⟨by decide, by decide, ⟨_, rfl⟩, fun _ => rfl⟩

/-- HaltedMachineHoldsItsState and the second clause of RunFallsOnlyAtAHaltingOpcode. -/
theorem witness_halted :
    (running .direct 0xFF 0).halt.run = false ∧
    core.run 3 (running .direct 0xFF 0).halt = .next (running .direct 0xFF 0).halt := ⟨rfl, rfl⟩

/-- HaltedMachineStandsAtAHaltingByte, at a running and at a halted state. -/
theorem witness_halted_at_halt :
    HaltedAtHalt (running .direct 0xFF 0) ∧ HaltedAtHalt (running .direct 0xFF 0).halt ∧
    step (running .direct 0xFF 0) = .next (running .direct 0xFF 0).halt :=
  ⟨fun h => absurd h (by decide), fun _ => by unfold HaltingOpcode; decide, rfl⟩

/-- InspectorRecoversTheCause: HLT, and an unknown opcode. -/
theorem witness_halting_step :
    step (running .offset 0xFF 0) = .next (running .offset 0xFF 0).halt ∧
    (running .offset 0xFF 0).fetchInstr = .hlt ∧
    step (running .offset 0x09 0) = .next (running .offset 0x09 0).halt ∧
    (running .offset 0x09 0).fetchInstr = .unknown 0x09 := ⟨rfl, rfl, rfl, rfl⟩

/-- JumpToItselfNeverHalts: a JMP (J3), and a JZ with Z set. -/
theorem witness_self_jump :
    let s := running .direct 0x07 0x10
    let u := { running .offset 0x08 0x10 with z := true }
    (s.run = true ∧ s.readMem (s.pc + 1) = s.pc ∧ s.readMem s.pc = 0x07) ∧
    (u.run = true ∧ u.readMem (u.pc + 1) = u.pc ∧ u.readMem u.pc = 0x08 ∧ u.z = true) := by decide

/-- ResetWinsAndRunEnableHolds: a history of moves with a write and a step. -/
theorem witness_moves :
    ∃ q, Platform.moves ⟨State.reset, true⟩ [.write 0x00 0x07, .tick true] = some q := ⟨_, rfl⟩

/-- HostHasNoWriteDuringARun: a step after which the machine runs, and one after which it does not. -/
theorem witness_tick :
    (∃ q, Platform.move ⟨running .direct 0x07 0x00, true⟩ (.tick true) = some q ∧
      q.core.run = true) ∧
    (∃ q, Platform.move ⟨running .direct 0xFF 0x00, true⟩ (.tick true) = some q ∧
      q.core.run = false) := ⟨⟨_, rfl, rfl⟩, ⟨_, rfl, rfl⟩⟩

/-- DecodeInvertsEncode, EncodeInvertsDecode, AssembledInstructionRuns: well-formed terms, an
accepted list and both kinds of refused list. -/
theorem witness_decode :
    (Instr.jz 0xFF).wellFormed = true ∧ (Instr.unknown 0x09).wellFormed = true ∧
    decode [0x08, 0xFF, 0x05] = .ok (.jz 0xFF, [0x05]) ∧
    decode [] = .error .noOpcode ∧ decode [0x08] = .error .noOperand ∧
    (running .direct 0 0).run = true := ⟨rfl, rfl, rfl, rfl, rfl, rfl⟩

/-- PlacedInstructionIsTheNextStep: a two-byte row and the catch-all row. -/
theorem witness_table_word :
    decodeTableWord 16 0x4007 = some (.jmp 0x40) ∧ decodeTableWord 8 0xFE = some (.unknown 0xFE) :=
  ⟨rfl, rfl⟩

end Sys2Proof.Tests
end

section
/-! Proof of the reset statement of 10_state.md: the reading rules of the state `State.resetIn m`, and
the fetch of any running state. -/

namespace Sys2Proof.Machine

open Sys2Proof

@[simp] theorem State.resetIn_mem (m : AddrMode) : (State.resetIn m).mem = [] := rfl
@[simp] theorem State.resetIn_a (m : AddrMode) : (State.resetIn m).a = 0x00 := rfl
@[simp] theorem State.resetIn_b (m : AddrMode) : (State.resetIn m).b = 0x00 := rfl
@[simp] theorem State.resetIn_pc (m : AddrMode) : (State.resetIn m).pc = 0x00 := rfl
@[simp] theorem State.resetIn_z (m : AddrMode) : (State.resetIn m).z = false := rfl
@[simp] theorem State.resetIn_run (m : AddrMode) : (State.resetIn m).run = true := rfl
@[simp] theorem State.resetIn_sp (m : AddrMode) : (State.resetIn m).sp = 0x00 := rfl
@[simp] theorem State.resetIn_addrMode (m : AddrMode) : (State.resetIn m).addrMode = m := rfl

/-- After reset no cell is listed, so each reads the byte of an unlisted cell, which is zero (R32). -/
@[simp] theorem State.readMem_resetIn (m : AddrMode) (x : Byte) :
    (State.resetIn m).readMem x = 0x00 := rfl

/-- An enabled step makes the opcode fetch, the operand fetch and the instruction's data access
(R36, R51). -/
theorem State.stepAccesses_running (s : State) (h : s.run = true) :
    s.stepAccesses = .read s.pc :: .read (s.pc + 1) :: dataAccesses s.fetchInstr s := by
  simp [State.stepAccesses, State.stepEnabled, h]

/-- Every running state fetches its opcode at `PC` (R102). -/
theorem State.read_pc_mem_stepAccesses (s : State) (h : s.run = true) :
    Access.read s.pc ∈ s.stepAccesses := by
  simp [State.stepAccesses_running s h]

/-- Settles O35: each entry of the table by its reading rule, and the first fetch as the opcode fetch
of a running state whose PC is zero. -/
theorem resetLeavesTheTable : Obligations.ResetLeavesTheTable := by
  unfold Obligations.ResetLeavesTheTable
  refine ⟨fun m => ?_, Config.addrModeAtReset, rfl⟩
  have hfetch := State.read_pc_mem_stepAccesses (State.resetIn m) (State.resetIn_run m)
  rw [State.resetIn_pc] at hfetch
  exact ⟨State.readMem_resetIn m, State.resetIn_a m, State.resetIn_b m, State.resetIn_pc m,
    State.resetIn_sp m, State.resetIn_z m, State.resetIn_run m, hfetch⟩

end Sys2Proof.Machine
end

section
/-! Proofs of the statements of 20_memory.md sections 1 and 2: the data access of each instruction, the
replay of an access, and the jumps as whole instructions. -/

namespace Sys2Proof.Machine

open Sys2Proof

@[simp] theorem dataAccesses_lda (op : Byte) (s : State) :
    dataAccesses (.lda op) s = [.read (s.ea op)] := rfl
@[simp] theorem dataAccesses_sta (op : Byte) (s : State) :
    dataAccesses (.sta op) s = [.write (s.ea op) s.a] := rfl
@[simp] theorem dataAccesses_ldb (op : Byte) (s : State) :
    dataAccesses (.ldb op) s = [.read (s.ea op)] := rfl
@[simp] theorem dataAccesses_stb (op : Byte) (s : State) :
    dataAccesses (.stb op) s = [.write (s.ea op) s.b] := rfl
@[simp] theorem dataAccesses_add (s : State) : dataAccesses .add s = [] := rfl
@[simp] theorem dataAccesses_sub (s : State) : dataAccesses .sub s = [] := rfl
@[simp] theorem dataAccesses_jmp (op : Byte) (s : State) : dataAccesses (.jmp op) s = [] := rfl
@[simp] theorem dataAccesses_jz (op : Byte) (s : State) : dataAccesses (.jz op) s = [] := rfl
@[simp] theorem dataAccesses_hlt (s : State) : dataAccesses .hlt s = [] := rfl
@[simp] theorem dataAccesses_unknown (opcode : Byte) (s : State) :
    dataAccesses (.unknown opcode) s = [] := rfl

@[simp] theorem replayAccess_read (s : State) (x : Byte) : replayAccess s (.read x) = s := rfl
@[simp] theorem replayAccess_write (s : State) (x v : Byte) :
    replayAccess s (.write x v) = s.writeMem x v := rfl

/-- The data access of a fetched instruction, by its opcode byte (R51): the four memory opcodes have
one, every other defined or unknown byte none. -/
theorem dataAccesses_decodeFetched (opcode operand : Byte) (s : State) :
    dataAccesses (decodeFetched opcode operand) s =
      if opcode = 0x01 ∨ opcode = 0x03 then [Access.read (s.ea operand)]
      else if opcode = 0x02 then [Access.write (s.ea operand) s.a]
      else if opcode = 0x04 then [Access.write (s.ea operand) s.b]
      else [] := by
  rcases decodeFetched_cases opcode operand with ⟨rfl, hi⟩ | ⟨rfl, hi⟩ | ⟨rfl, hi⟩ | ⟨rfl, hi⟩ |
    ⟨rfl, hi⟩ | ⟨rfl, hi⟩ | ⟨rfl, hi⟩ | ⟨rfl, hi⟩ | ⟨rfl, hi⟩ | ⟨hundefined, hi⟩
  pick_goal 10
  · simp only [definedOpcodes, List.mem_cons, not_or] at hundefined
    obtain ⟨h1, h2, h3, h4, -⟩ := hundefined
    rw [hi, dataAccesses_unknown, if_neg (not_or.mpr ⟨h1, h3⟩), if_neg h2, if_neg h4]
  all_goals
    rw [hi]
    rfl

/-- An instruction changes memory by its data access alone (R35, R51). -/
theorem nextState_mem_eq_replay (i : Instr) (s : State) :
    (nextState i s).mem = ((dataAccesses i s).foldl replayAccess s).mem := by
  cases i with
  | jz op => cases hz : s.z <;> simp [nextState, hz]
  | _ => simp [nextState]

/-- Settles O15: the opcode byte fixes the data access, and the next state's memory is its replay, the
two fetches being reads. -/
theorem stepMakesOnlyItsAccesses : Obligations.StepMakesOnlyItsAccesses := by
  unfold Obligations.StepMakesOnlyItsAccesses
  intro s t hrun hstep
  rw [step_running s hrun] at hstep
  obtain rfl := Host.Outcome.next.inj hstep
  rw [State.stepAccesses_running s hrun]
  refine ⟨?_, nextState_mem_eq_replay s.fetchInstr s⟩
  exact congrArg ([Access.read s.pc, Access.read (s.pc + 1)] ++ ·)
    (dataAccesses_decodeFetched (s.readMem s.pc) (s.readMem (s.pc + 1)) s)

/-- JMP goes to the operand as it stands (R54, R161). -/
theorem exec_jmp_eq (op : Byte) (s : State) : exec (.jmp op) s = .next (s.setPc op) :=
  exec_eq (.jmp op) s

/-- A taken JZ goes to the operand as it stands (R54, R162). -/
theorem exec_jz_of_zero (op : Byte) (s : State) (hz : s.z = true) :
    exec (.jz op) s = .next (s.setPc op) := by
  rw [exec_eq, nextState, if_pos hz]

/-- Settles O18: the data access of each instruction by its own equation, and the two jumps as a write
of PC, which reads no policy. -/
theorem jumpTargetIsNeverOffset : Obligations.JumpTargetIsNeverOffset := by
  unfold Obligations.JumpTargetIsNeverOffset
  intro s op
  refine ⟨dataAccesses_lda op s, dataAccesses_ldb op s, dataAccesses_sta op s,
    dataAccesses_stb op s, fun m => ⟨?_, ?_, ?_⟩⟩
  · exact ⟨_, exec_jmp_eq op _, State.setPc_pc _ op, State.setPc_addrMode _ op⟩
  · intro hz
    exact ⟨_, exec_jz_of_zero op { s with addrMode := m } hz, State.setPc_pc _ op⟩
  · simp

end Sys2Proof.Machine
end


section
/-! Proofs of the statements of 40_instruction_cycle.md: which instruction a step fetches, and the frame
of each field of the state over the instructions' opcodes. -/

namespace Sys2Proof.Machine

open Sys2Proof

/-- Decoding loses nothing of the opcode byte, defined or unknown (R83, R104). -/
@[simp] theorem decodeFetched_opcode (opcode operand : Byte) :
    (decodeFetched opcode operand).opcode = opcode := by
  rcases decodeFetched_cases opcode operand with ⟨rfl, hi⟩ | ⟨rfl, hi⟩ | ⟨rfl, hi⟩ | ⟨rfl, hi⟩ |
    ⟨rfl, hi⟩ | ⟨rfl, hi⟩ | ⟨rfl, hi⟩ | ⟨rfl, hi⟩ | ⟨rfl, hi⟩ | ⟨-, hi⟩
  all_goals
    rw [hi]
    rfl

theorem wellFormed_unknown_iff (opcode : Byte) :
    (Instr.unknown opcode).wellFormed = true ↔ opcode ∉ definedOpcodes := by
  simp [Instr.wellFormed]

/-- Whatever two bytes are fetched, what they decode to stands for a word of the hardware (R87). -/
theorem decodeFetched_wellFormed (opcode operand : Byte) :
    (decodeFetched opcode operand).wellFormed = true := by
  rcases decodeFetched_cases opcode operand with ⟨rfl, hi⟩ | ⟨rfl, hi⟩ | ⟨rfl, hi⟩ | ⟨rfl, hi⟩ |
    ⟨rfl, hi⟩ | ⟨rfl, hi⟩ | ⟨rfl, hi⟩ | ⟨rfl, hi⟩ | ⟨rfl, hi⟩ | ⟨hundefined, hi⟩
  pick_goal 10
  · rw [hi]
    exact (wellFormed_unknown_iff opcode).mpr hundefined
  all_goals
    rw [hi]
    rfl

theorem State.fetchInstr_opcode (s : State) : s.fetchInstr.opcode = s.readMem s.pc :=
  decodeFetched_opcode _ _

theorem State.fetchInstr_wellFormed (s : State) : s.fetchInstr.wellFormed = true :=
  decodeFetched_wellFormed _ _

theorem step_running_eq_exec (s : State) (h : s.run = true) : step s = exec s.fetchInstr s :=
  if_pos h

/-- Settles O11: the instruction is the fetched one, and `exec` answers a next state on every
instruction. -/
theorem stepIsTotal : Obligations.StepIsTotal := by
  unfold Obligations.StepIsTotal
  refine ⟨fun s => Iff.rfl, fun s hrun => ?_, fun i s => ⟨nextState i s, exec_eq i s⟩⟩
  exact ⟨s.fetchInstr, nextState s.fetchInstr s, s.fetchInstr_wellFormed,
    step_running_eq_exec s hrun, step_running s hrun⟩

/-! The frame of each field, over the opcode of the instruction (R113). -/

/-- JZ writes PC alone, taken or not (R162). -/
theorem nextState_jz (op : Byte) (s : State) :
    nextState (.jz op) s = s.setPc (if s.z then op else s.pc + 2) := by
  cases hz : s.z <;> simp [nextState, hz, State.advance]

@[simp] theorem nextState_sp (i : Instr) (s : State) : (nextState i s).sp = s.sp := by
  cases i with
  | jz op => rw [nextState_jz, State.setPc_sp]
  | _ => rfl

@[simp] theorem nextState_addrMode (i : Instr) (s : State) :
    (nextState i s).addrMode = s.addrMode := by
  cases i with
  | jz op => rw [nextState_jz, State.setPc_addrMode]
  | _ => rfl

/-- Only LDB writes B. -/
theorem nextState_b (i : Instr) (s : State) (h : i.opcode ≠ 0x03) : (nextState i s).b = s.b := by
  cases i with
  | ldb op => exact absurd rfl h
  | jz op => rw [nextState_jz, State.setPc_b]
  | _ => rfl

/-- Only LDA, ADD and SUB write A. -/
theorem nextState_a (i : Instr) (s : State) (h : i.opcode ∉ [(0x01 : Byte), 0x05, 0x06]) :
    (nextState i s).a = s.a := by
  cases i with
  | lda _ | add | sub => simp [Instr.opcode] at h
  | jz op => rw [nextState_jz, State.setPc_a]
  | _ => rfl

/-- Only ADD and SUB write Z. -/
theorem nextState_z (i : Instr) (s : State) (h : i.opcode ∉ [(0x05 : Byte), 0x06]) :
    (nextState i s).z = s.z := by
  cases i with
  | add | sub => simp [Instr.opcode] at h
  | jz op => rw [nextState_jz, State.setPc_z]
  | _ => rfl

/-- Only STA and STB write memory. -/
theorem nextState_mem (i : Instr) (s : State) (h : i.opcode ∉ [(0x02 : Byte), 0x04]) :
    (nextState i s).mem = s.mem := by
  cases i with
  | sta _ | stb _ => simp [Instr.opcode] at h
  | jz op => rw [nextState_jz, State.setPc_mem]
  | _ => rfl

/-- Each undefined opcode byte is one on which a step halts (R182). -/
theorem haltingOpcode_of_not_defined {opcode : Byte} (h : opcode ∉ definedOpcodes) :
    HaltingOpcode opcode := by
  simp only [definedOpcodes, List.mem_cons, List.not_mem_nil, or_false, not_or] at h
  unfold HaltingOpcode
  bv_omega

/-- Only HLT and the unknown opcodes write RUN (R180). -/
theorem nextState_run (i : Instr) (s : State) (hwf : i.wellFormed = true)
    (h : ¬ HaltingOpcode i.opcode) : (nextState i s).run = s.run := by
  cases i with
  | hlt => exact absurd (by simp [HaltingOpcode, Instr.opcode]) h
  | unknown opcode =>
    exact absurd (haltingOpcode_of_not_defined ((wellFormed_unknown_iff opcode).mp hwf)) h
  | jz op => rw [nextState_jz, State.setPc_run]
  | _ => rfl

/-- At a halting opcode the one effect is that of `halt` (R181, R182). -/
theorem nextState_of_haltingOpcode (i : Instr) (s : State) (h : HaltingOpcode i.opcode) :
    nextState i s = s.halt := by
  cases i with
  | hlt | unknown _ => rfl
  | _ => simp [HaltingOpcode, Instr.opcode] at h

theorem memorySame_of_mem_eq {s t : State} (h : t.mem = s.mem) : MemorySame s t :=
  State.readMem_congr s t h

/-- A write at `addr` leaves every other cell, whatever else of the state changes beside it. -/
theorem memorySameExcept_of_mem_eq_write {s t : State} {addr v : Byte}
    (h : t.mem = (s.writeMem addr v).mem) : MemorySameExcept addr s t := by
  intro x hx
  rw [State.readMem_congr _ t h, State.readMem_writeMem, if_neg hx]

/-- At a store opcode every cell is kept but the one at `EA(operand)` (R122, R124). -/
theorem nextState_memorySameExcept (s : State) (opcode operand : Byte)
    (h : opcode ∈ [(0x02 : Byte), 0x04]) :
    MemorySameExcept (s.ea operand) s (nextState (decodeFetched opcode operand) s) := by
  simp only [List.mem_cons, List.not_mem_nil, or_false] at h
  obtain rfl | rfl := h
  · exact memorySameExcept_of_mem_eq_write (v := s.a) rfl
  · exact memorySameExcept_of_mem_eq_write (v := s.b) rfl

/-- Settles O13: the next state is that of the fetched instruction, whose opcode is the byte at PC; each
field by its frame lemma, and a halting step as `halt`. -/
theorem stepChangesOnlyWhatItsRuleWrites : Obligations.StepChangesOnlyWhatItsRuleWrites := by
  unfold Obligations.StepChangesOnlyWhatItsRuleWrites
  intro s t hrun hstep
  rw [step_running s hrun] at hstep
  obtain rfl := Host.Outcome.next.inj hstep
  rw [← s.fetchInstr_opcode]
  refine ⟨nextState_sp _ s, nextState_addrMode _ s, nextState_b _ s, nextState_a _ s,
    nextState_z _ s, nextState_run _ s s.fetchInstr_wellFormed,
    fun h => memorySame_of_mem_eq (nextState_mem _ s h), fun h => ?_,
    fun h => ?_⟩
  · rw [s.fetchInstr_opcode] at h
    exact nextState_memorySameExcept s _ _ h
  · rw [nextState_of_haltingOpcode _ s h]
    exact ⟨State.halt_run s, State.halt_a s, State.halt_b s, State.halt_pc s, State.halt_z s,
      memorySame_of_mem_eq (State.halt_mem s)⟩

end Sys2Proof.Machine
end


section
/-! Proofs of the statements of 41_load_store.md: what a running step at a known opcode does, the
effect of a store, and the four instructions. -/

namespace Sys2Proof.Machine

open Sys2Proof

/-- The byte at PC selects the instruction, the byte after it is the operand (R102 to R104). -/
theorem State.fetchInstr_of_opcode {s : State} {opcode : Byte} (h : s.readMem s.pc = opcode) :
    s.fetchInstr = decodeFetched opcode (s.readMem (s.pc + 1)) := by
  rw [← h]
  rfl

/-- A running step performs the fetched instruction: the two fetches, its data access, and `exec`
(R36, R105). -/
theorem step_and_accesses_of_fetchInstr {s : State} {i : Instr} (hrun : s.run = true)
    (hfetch : s.fetchInstr = i) :
    step s = exec i s ∧
      s.stepAccesses = .read s.pc :: .read (s.pc + 1) :: dataAccesses i s := by
  rw [← hfetch]
  exact ⟨step_running_eq_exec s hrun, s.stepAccesses_running hrun⟩

@[simp] theorem State.readMem_advance (s : State) (w x : Byte) :
    (s.advance w).readMem x = s.readMem x := rfl

/-- The advance of PC as a number (R106). -/
theorem State.advance_pc_toNat (s : State) (w : Byte) :
    (s.advance w).pc.toNat = (s.pc.toNat + w.toNat) % 256 :=
  BitVec.toNat_add s.pc w

@[simp] theorem State.readMem_storeOperand_ea (s : State) (operand v : Byte) :
    (s.storeOperand operand v).readMem (s.ea operand) = v := by
  rw [State.storeOperand, State.readMem_writeMem, if_pos rfl]

/-- The effect that STA and STB share, whichever register `v` comes from (R122, R124): the one cell
at `EA(operand)`, and PC. -/
theorem storeOperand_advance_effect (s : State) (operand v : Byte) :
    let t := (s.storeOperand operand v).advance 2
    t.readMem (s.ea operand) = v ∧ MemorySameExcept (s.ea operand) s t ∧
      t.pc.toNat = (s.pc.toNat + 2) % 256 ∧
      t.a = s.a ∧ t.b = s.b ∧ t.z = s.z ∧ t.run = s.run ∧ t.sp = s.sp ∧
      t.addrMode = s.addrMode := by
  intro t
  have hcell : t.readMem (s.ea operand) = v := by simp [t]
  have hrest : MemorySameExcept (s.ea operand) s t := memorySameExcept_of_mem_eq_write (v := v) rfl
  have hpc : t.pc.toNat = (s.pc.toNat + 2) % 256 := State.advance_pc_toNat _ 2
  exact ⟨hcell, hrest, hpc, by simp [t]⟩

/-- Settles O1: at opcode 0x01 the fetched instruction is LDA; its next state writes A and PC. -/
theorem ldaLoadsAccumulator : Obligations.LdaLoadsAccumulator := by
  unfold Obligations.LdaLoadsAccumulator
  refine ⟨fun _ => rfl, fun s hrun hop => ?_, fun s operand => ?_⟩
  · have hfetch : s.fetchInstr = .lda (s.readMem (s.pc + 1)) := State.fetchInstr_of_opcode hop
    exact step_and_accesses_of_fetchInstr hrun hfetch
  · have hpc := State.advance_pc_toNat (s.setA (s.loadOperand operand)) 2
    have hb := nextState_b (.lda operand) s (by simp [Instr.opcode])
    have hz := nextState_z (.lda operand) s (by simp [Instr.opcode])
    have hmem := nextState_mem (.lda operand) s (by simp [Instr.opcode])
    exact ⟨_, exec_eq (.lda operand) s, rfl, hpc, hb, hz, rfl, nextState_sp _ s,
      nextState_addrMode _ s, memorySame_of_mem_eq hmem⟩

/-- Settles O2: at opcode 0x02 the fetched instruction is STA, which stores A. -/
theorem staStoresAccumulator : Obligations.StaStoresAccumulator := by
  unfold Obligations.StaStoresAccumulator
  refine ⟨fun _ => rfl, fun s hrun hop => ?_, fun s operand => ?_⟩
  · have hfetch : s.fetchInstr = .sta (s.readMem (s.pc + 1)) := State.fetchInstr_of_opcode hop
    exact step_and_accesses_of_fetchInstr hrun hfetch
  · exact ⟨_, exec_eq (.sta operand) s, storeOperand_advance_effect s operand s.a⟩

/-- Settles O3: at opcode 0x03 the fetched instruction is LDB; its next state writes B and PC. -/
theorem ldbLoadsB : Obligations.LdbLoadsB := by
  unfold Obligations.LdbLoadsB
  refine ⟨fun _ => rfl, fun s hrun hop => ?_, fun s operand => ?_⟩
  · have hfetch : s.fetchInstr = .ldb (s.readMem (s.pc + 1)) := State.fetchInstr_of_opcode hop
    exact step_and_accesses_of_fetchInstr hrun hfetch
  · have hpc := State.advance_pc_toNat (s.setB (s.loadOperand operand)) 2
    have ha := nextState_a (.ldb operand) s (by simp [Instr.opcode])
    have hz := nextState_z (.ldb operand) s (by simp [Instr.opcode])
    have hmem := nextState_mem (.ldb operand) s (by simp [Instr.opcode])
    exact ⟨_, exec_eq (.ldb operand) s, rfl, hpc, ha, hz, rfl, nextState_sp _ s,
      nextState_addrMode _ s, memorySame_of_mem_eq hmem⟩

/-- Settles O4: at opcode 0x04 the fetched instruction is STB, which stores B. -/
theorem stbStoresB : Obligations.StbStoresB := by
  unfold Obligations.StbStoresB
  refine ⟨fun _ => rfl, fun s hrun hop => ?_, fun s operand => ?_⟩
  · have hfetch : s.fetchInstr = .stb (s.readMem (s.pc + 1)) := State.fetchInstr_of_opcode hop
    exact step_and_accesses_of_fetchInstr hrun hfetch
  · exact ⟨_, exec_eq (.stb operand) s, storeOperand_advance_effect s operand s.b⟩

end Sys2Proof.Machine
end


section
/-! Proofs of the statements of 42_arithmetic.md on ADD: the result as a number, Z from that result, and
when the sum of two bytes reduces to zero. -/

namespace Sys2Proof.Machine

open Sys2Proof

/-- ADD writes the sum of the old A and B, reduced (R147). -/
theorem nextState_add_a_toNat (s : State) :
    (nextState .add s).a.toNat = (s.a.toNat + s.b.toNat) % 256 :=
  aluAdd_toNat s.a s.b

/-- ADD takes Z from the result it writes to A, so from the reduced sum (R140, R147). -/
theorem nextState_add_z_iff (s : State) :
    (nextState .add s).z = true ↔ (nextState .add s).a.toNat = 0 :=
  zeroFlag_eq_true _

theorem nextState_add_z_iff_sum (s : State) :
    (nextState .add s).z = true ↔ (s.a.toNat + s.b.toNat) % 256 = 0 := by
  rw [nextState_add_z_iff, nextState_add_a_toNat]

theorem nextState_add_pc_toNat (s : State) :
    (nextState .add s).pc.toNat = (s.pc.toNat + 1) % 256 :=
  State.advance_pc_toNat _ 1

/-- Two bytes sum to less than 512, so the sum reduces to zero at two values alone. -/
theorem add_mod_eq_zero_iff_sum (x y : Byte) :
    (x.toNat + y.toNat) % 256 = 0 ↔ x.toNat + y.toNat = 0 ∨ x.toNat + y.toNat = 256 := by
  have hx := x.isLt
  have hy := y.isLt
  omega

/-- The sum reduces to zero exactly when one byte is the two's complement of the other. -/
theorem add_mod_eq_zero_iff_complement (x y : Byte) :
    (x.toNat + y.toNat) % 256 = 0 ↔ y.toNat = (256 - x.toNat) % 256 := by
  have hx := x.isLt
  have hy := y.isLt
  omega

/-- Settles O5: at opcode 0x05 the fetched instruction is ADD, which has no data access; its next state
writes A, Z and PC. -/
theorem addWrapsAndSetsZero : Obligations.AddWrapsAndSetsZero := by
  unfold Obligations.AddWrapsAndSetsZero
  refine ⟨rfl, fun s hrun hop => ?_, fun s => ?_⟩
  · have hfetch : s.fetchInstr = .add := State.fetchInstr_of_opcode hop
    exact step_and_accesses_of_fetchInstr hrun hfetch
  · have hb := nextState_b .add s (by simp [Instr.opcode])
    have hrunKept := nextState_run .add s rfl (by simp [HaltingOpcode, Instr.opcode])
    have hmem := nextState_mem .add s (by simp [Instr.opcode])
    exact ⟨_, exec_eq .add s, nextState_add_a_toNat s, nextState_add_z_iff_sum s,
      nextState_add_pc_toNat s, hb, hrunKept, nextState_sp _ s, nextState_addrMode _ s,
      memorySame_of_mem_eq hmem⟩

/-- Settles O22: Z is set exactly when the reduced sum is zero, read as a sum of 0 or 256 and as the two's
complement. -/
theorem addHoldsForAllBytes : Obligations.AddHoldsForAllBytes := by
  unfold Obligations.AddHoldsForAllBytes
  rintro s _ _ rfl rfl
  have hz := nextState_add_z_iff_sum s
  exact ⟨_, exec_eq .add s, nextState_add_a_toNat s, nextState_add_z_iff s,
    hz.trans (add_mod_eq_zero_iff_sum s.a s.b), hz.trans (add_mod_eq_zero_iff_complement s.a s.b)⟩

end Sys2Proof.Machine
end


section
/-! Proofs of the statements of 43_control_transfer.md: each jump writes PC and nothing else. -/

namespace Sys2Proof.Machine

open Sys2Proof

/-- The frame that JMP and JZ share, whichever address `v` they write to PC (R160 to R162). -/
theorem setPc_frame (s : State) (v : Byte) :
    (s.setPc v).a = s.a ∧ (s.setPc v).b = s.b ∧ (s.setPc v).z = s.z ∧ (s.setPc v).run = s.run ∧
      (s.setPc v).sp = s.sp ∧ (s.setPc v).addrMode = s.addrMode ∧ MemorySame s (s.setPc v) :=
  ⟨State.setPc_a s v, State.setPc_b s v, State.setPc_z s v, State.setPc_run s v,
    State.setPc_sp s v, State.setPc_addrMode s v, memorySame_of_mem_eq (State.setPc_mem s v)⟩

/-- JZ goes to the operand or to the byte after its own two, as Z says (R162). -/
theorem exec_jz_eq (op : Byte) (s : State) :
    exec (.jz op) s = .next (s.setPc (if s.z then op else s.pc + 2)) := by
  rw [exec_eq, nextState_jz]

/-- Settles O7: at opcode 0x07 the fetched instruction is JMP, which has no data access; its next state
writes the operand to PC. -/
theorem jmpGoesToOperand : Obligations.JmpGoesToOperand := by
  unfold Obligations.JmpGoesToOperand
  refine ⟨fun _ => rfl, fun s hrun hop => ?_, fun s operand => ?_⟩
  · have hfetch : s.fetchInstr = .jmp (s.readMem (s.pc + 1)) := State.fetchInstr_of_opcode hop
    exact step_and_accesses_of_fetchInstr hrun hfetch
  · exact ⟨_, exec_jmp_eq operand s, State.setPc_pc s operand, setPc_frame s operand⟩

/-- Settles O8: at opcode 0x08 the fetched instruction is JZ, which has no data access; its next state
writes PC alone, and Z chooses between the operand and the advance by 2. -/
theorem jzBranchesOnZero : Obligations.JzBranchesOnZero := by
  unfold Obligations.JzBranchesOnZero
  refine ⟨fun _ => rfl, fun s hrun hop => ?_, fun s operand => ?_⟩
  · have hfetch : s.fetchInstr = .jz (s.readMem (s.pc + 1)) := State.fetchInstr_of_opcode hop
    exact step_and_accesses_of_fetchInstr hrun hfetch
  · refine ⟨_, exec_jz_eq operand s, ?_, setPc_frame s _⟩
    rw [State.setPc_pc]
    cases s.z with
    | true => rfl
    | false => exact State.advance_pc_toNat s 2

end Sys2Proof.Machine
end


section
/-! Proofs of the statements of 44_halt.md: HLT and the unknown opcodes answer the one state
`State.halt`, and the unknown set is the complement of the defined opcodes. -/

namespace Sys2Proof.Machine

open Sys2Proof

/-- The catch-all set by its ranges (R86, R182). -/
theorem not_mem_definedOpcodes_iff (opcode : Byte) :
    opcode ∉ definedOpcodes ↔ opcode = 0x00 ∨ (0x09 ≤ opcode.toNat ∧ opcode.toNat ≤ 0xFE) := by
  simp only [definedOpcodes, List.mem_cons, List.not_mem_nil, or_false, not_or]
  bv_omega

theorem decodeFetched_of_not_defined {opcode : Byte} (operand : Byte)
    (h : opcode ∉ definedOpcodes) : decodeFetched opcode operand = .unknown opcode := by
  rcases decodeFetched_cases opcode operand with ⟨rfl, -⟩ | ⟨rfl, -⟩ | ⟨rfl, -⟩ | ⟨rfl, -⟩ |
    ⟨rfl, -⟩ | ⟨rfl, -⟩ | ⟨rfl, -⟩ | ⟨rfl, -⟩ | ⟨rfl, -⟩ | ⟨-, hi⟩
  pick_goal 10
  · exact hi
  all_goals exact absurd (by decide) h

theorem exec_hlt_eq (s : State) : exec .hlt s = .next s.halt :=
  exec_eq .hlt s

/-- The answer is that of HLT, whichever byte it is (R182). -/
theorem exec_unknown_eq (opcode : Byte) (s : State) : exec (.unknown opcode) s = .next s.halt :=
  exec_eq (.unknown opcode) s

/-- The primitive `halt` makes RUN false and keeps every other field and every cell (R180). -/
theorem halt_effect (s : State) :
    s.halt.run = false ∧ s.halt.pc = s.pc ∧ s.halt.a = s.a ∧ s.halt.b = s.b ∧ s.halt.z = s.z ∧
      s.halt.sp = s.sp ∧ s.halt.addrMode = s.addrMode ∧ MemorySame s s.halt :=
  ⟨State.halt_run s, State.halt_pc s, State.halt_a s, State.halt_b s, State.halt_z s,
    State.halt_sp s, State.halt_addrMode s, memorySame_of_mem_eq (State.halt_mem s)⟩

/-- Settles O9: at opcode 0xFF the fetched instruction is HLT, which has no data access; it answers
`halt`. -/
theorem hltClearsRunOnly : Obligations.HltClearsRunOnly := by
  unfold Obligations.HltClearsRunOnly
  refine ⟨rfl, fun s hrun hop => ?_, fun s => ⟨s.halt, exec_hlt_eq s, halt_effect s⟩⟩
  have hfetch : s.fetchInstr = .hlt := State.fetchInstr_of_opcode hop
  exact step_and_accesses_of_fetchInstr hrun hfetch

/-- Settles O10: an opcode in the two ranges is undefined, so the fetched instruction is the unknown
one, which has no data access; it answers `halt`, as HLT does. -/
theorem unknownOpcodeHalts : Obligations.UnknownOpcodeHalts := by
  unfold Obligations.UnknownOpcodeHalts
  refine ⟨fun s hrun hop => ?_, fun s opcode =>
    ⟨s.halt, exec_unknown_eq opcode s, exec_hlt_eq s, halt_effect s⟩⟩
  have hfetch : s.fetchInstr = .unknown (s.readMem s.pc) :=
    decodeFetched_of_not_defined _ ((not_mem_definedOpcodes_iff _).mpr hop)
  exact step_and_accesses_of_fetchInstr hrun hfetch

end Sys2Proof.Machine
end

section
/-! Proofs of the statements on the model's form of memory: replayed accesses keep the canonical
form, and a canonical list is determined by what it reads. -/

namespace Sys2Proof.Machine

open Sys2Proof

theorem canonicalMemory_writeMem {s : State} (x v : Byte) (h : CanonicalMemory s) :
    CanonicalMemory (s.writeMem x v) :=
  State.wf_writeMem s x v h

/-- A write is the one access that changes memory, and it keeps the form (R35). -/
theorem canonicalMemory_replay {s : State} (accesses : List Access) (h : CanonicalMemory s) :
    CanonicalMemory (accesses.foldl replayAccess s) := by
  induction accesses generalizing s with
  | nil => exact h
  | cons access rest ih =>
    cases access with
    | read x => exact ih h
    | write x v => exact ih (canonicalMemory_writeMem x v h)

theorem canonicalMemory_nextState {s : State} (i : Instr) (h : CanonicalMemory s) :
    CanonicalMemory (nextState i s) := by
  unfold CanonicalMemory
  rw [nextState_mem_eq_replay]
  exact canonicalMemory_replay (dataAccesses i s) h

/-- Settles O27: a halted step is the identity, and a running one changes memory by the replay of
its data access. -/
theorem memoryStaysCanonical : Obligations.MemoryStaysCanonical := by
  unfold Obligations.MemoryStaysCanonical
  intro s t hcanonical hstep
  obtain ⟨-, rfl⟩ | ⟨-, rfl⟩ := step_cases hstep
  · exact hcanonical
  · exact canonicalMemory_nextState _ hcanonical

/-- With no two cells at one address, a listed cell is the one that reads. -/
theorem Memory.read_of_mem {m : Memory} {c : Host.Cell} (hm : m.Pairwise fun c d => c.1 < d.1)
    (hc : c ∈ m) : Memory.read m c.1 = c.2 := by
  induction m with
  | nil => cases hc
  | cons d rest ih =>
    obtain ⟨hd, hrest⟩ := List.pairwise_cons.mp hm
    rcases List.mem_cons.mp hc with rfl | hc
    · exact if_pos rfl
    · have hlt := hd c hc
      exact (if_neg hlt.ne).trans (ih hrest hc)

/-- What does not read as an unlisted cell is listed. -/
theorem Memory.mem_of_read_ne {m : Memory} {x : Nat} (h : Memory.read m x ≠ Config.unlistedByte) :
    (x, Memory.read m x) ∈ m := by
  induction m with
  | nil => exact absurd rfl h
  | cons d rest ih =>
    unfold Memory.read at h ⊢
    split at h
    · next heq =>
      rw [if_pos heq, ← heq]
      exact List.mem_cons_self
    · next hne =>
      rw [if_neg hne]
      exact List.mem_cons_of_mem _ (ih h)

/-- A canonical list holds exactly the cells in range that do not read as unlisted ones. -/
theorem Memory.wf_mem_iff {m : Memory} (hm : Memory.wf m) (c : Host.Cell) :
    c ∈ m ↔ c.1 < 256 ∧ Memory.read m c.1 = c.2 ∧ c.2 ≠ Config.unlistedByte := by
  obtain ⟨hsorted, hcells⟩ := hm
  constructor
  · intro hc
    obtain ⟨hrange, hlisted⟩ := hcells c hc
    exact ⟨hrange, Memory.read_of_mem hsorted hc, hlisted⟩
  · obtain ⟨x, v⟩ := c
    rintro ⟨-, (rfl : Memory.read m x = v), hlisted⟩
    exact Memory.mem_of_read_ne hlisted

/-- Settles O28: alike reads in range give the two lists the same cells, and a strictly rising list
is determined by its cells. -/
theorem canonicalMemoriesReadingAlikeAreEqual :
    Obligations.CanonicalMemoriesReadingAlikeAreEqual := by
  unfold Obligations.CanonicalMemoriesReadingAlikeAreEqual
  intro s t hs ht hsame
  have hread : ∀ x < 256, Memory.read t.mem x = Memory.read s.mem x := by
    intro x hx
    have h := hsame (BitVec.ofNat 8 x)
    rwa [State.readMem, State.readMem, BitVec.toNat_ofNat, Nat.mod_eq_of_lt hx] at h
  have hmem : ∀ c, c ∈ s.mem ↔ c ∈ t.mem := by
    intro c
    rw [Memory.wf_mem_iff hs, Memory.wf_mem_iff ht]
    exact and_congr_right fun hc => by rw [hread c.1 hc]
  have hirrefl : Std.Irrefl fun c d : Host.Cell => c.1 < d.1 := ⟨fun c => lt_irrefl c.1⟩
  have hasymm : Std.Antisymm fun c d : Host.Cell => c.1 < d.1 :=
    ⟨fun c d hcd hdc => absurd hcd hdc.not_gt⟩
  exact List.Pairwise.eq_of_mem_iff hs.1 ht.1 hmem

end Sys2Proof.Machine
end

section
/-! Proofs of the statements of 40_instruction_cycle.md section 3, 44_halt.md and 60_exceptions.md
section 1: when RUN falls, what a halted machine shows, and runs that stay at one state. -/

namespace Sys2Proof.Machine

open Sys2Proof

theorem eq_nextState_of_step {s t : State} (hrun : s.run = true) (hstep : step s = .next t) :
    t = nextState s.fetchInstr s :=
  Host.Outcome.next.inj (hstep.symm.trans (step_running s hrun))

/-- RUN of a running machine falls exactly at a halting opcode (R180 to R182). -/
theorem nextState_run_eq_false_iff {s : State} (hrun : s.run = true) :
    (nextState s.fetchInstr s).run = false ↔ HaltingOpcode (s.readMem s.pc) := by
  rw [← s.fetchInstr_opcode]
  constructor
  · intro hfalse
    by_contra hnot
    rw [nextState_run _ s s.fetchInstr_wellFormed hnot, hrun] at hfalse
    cases hfalse
  · intro hhalting
    rw [nextState_of_haltingOpcode _ s hhalting, State.halt_run]

/-- A running step after which RUN is false stands at a halting opcode and is `halt`. -/
theorem step_halting {s t : State} (hrun : s.run = true) (hstep : step s = .next t)
    (hfalse : t.run = false) : HaltingOpcode (s.readMem s.pc) ∧ t = s.halt := by
  obtain rfl := eq_nextState_of_step hrun hstep
  have hhalting := (nextState_run_eq_false_iff hrun).mp hfalse
  refine ⟨hhalting, nextState_of_haltingOpcode _ s ?_⟩
  rwa [s.fetchInstr_opcode]

@[simp] theorem State.readMem_halt (s : State) (x : Byte) : s.halt.readMem x = s.readMem x := rfl

/-- Settles O31: a halted state is kept, and a step that halts leaves PC and memory at the halting
opcode. -/
theorem haltedMachineStandsAtAHaltingByte : Obligations.HaltedMachineStandsAtAHaltingByte := by
  unfold Obligations.HaltedMachineStandsAtAHaltingByte
  intro s t hinv hstep hfalse
  cases hrun : s.run with
  | false =>
    rw [step_halted s hrun] at hstep
    obtain rfl := Host.Outcome.next.inj hstep
    exact hinv hrun
  | true =>
    obtain ⟨hhalting, rfl⟩ := step_halting hrun hstep hfalse
    rwa [State.readMem_halt, State.halt_pc]

/-- A state that steps to itself is where any number of steps ends. -/
theorem run_of_step_self {s : State} (h : step s = .next s) (n : Nat) : core.run n s = .next s := by
  induction n with
  | zero => rfl
  | succ n ih => rw [run_succ n s s h, ih]

/-- Settles O29: the step of a halted machine is the identity (R110). -/
theorem haltedMachineHoldsItsState : Obligations.HaltedMachineHoldsItsState := by
  unfold Obligations.HaltedMachineHoldsItsState
  intro n s hrun
  refine ⟨run_of_step_self (step_halted s hrun) n, ?_, ?_⟩
  · simp [State.stepAccesses, State.stepEnabled, hrun]
  · simp [State.outputs, hrun]

/-- Settles O30: one running step by its opcode, and a halted machine keeps its state. -/
theorem runFallsOnlyAtAHaltingOpcode : Obligations.RunFallsOnlyAtAHaltingOpcode := by
  unfold Obligations.RunFallsOnlyAtAHaltingOpcode
  refine ⟨fun s t hrun hstep => ?_, fun n s t hsteps hrun => ?_⟩
  · obtain rfl := eq_nextState_of_step hrun hstep
    exact nextState_run_eq_false_iff hrun
  · rw [run_of_step_self (step_halted s hrun) n] at hsteps
    obtain rfl := Host.Outcome.next.inj hsteps
    exact hrun

theorem eq_hlt_or_unknown_of_haltingOpcode {i : Instr} (h : HaltingOpcode i.opcode) :
    i = .hlt ∨ ∃ opcode, i = .unknown opcode := by
  cases i with
  | hlt => exact .inl rfl
  | unknown opcode => exact .inr ⟨opcode, rfl⟩
  | _ => simp [HaltingOpcode, Instr.opcode] at h

/-- After a halt the inspector reads the byte at PC, 0xFF as HLT (R202). -/
theorem State.haltCause_halt (s : State) :
    s.halt.haltCause =
      if s.readMem s.pc = 0xFF then some .hlt else some (.unknownOpcode (s.readMem s.pc)) := rfl

/-- Settles O32: the halt keeps PC and memory, so the inspector reads the opcode that was executed;
0xFF is defined, so it is no unknown opcode. -/
theorem inspectorRecoversTheCause : Obligations.InspectorRecoversTheCause := by
  unfold Obligations.InspectorRecoversTheCause
  intro s t hrun hstep hfalse
  obtain ⟨hhalting, rfl⟩ := step_halting hrun hstep hfalse
  rw [State.haltCause_halt, ← s.fetchInstr_opcode]
  refine ⟨fun hi => ?_, fun opcode hi => ?_, ?_⟩
  · rw [hi]
    exact if_pos rfl
  · have hundefined : opcode ∉ definedOpcodes :=
      (wellFormed_unknown_iff opcode).mp (hi ▸ s.fetchInstr_wellFormed)
    rw [hi]
    refine if_neg fun (hFF : opcode = 0xFF) => hundefined ?_
    rw [hFF]
    decide
  · exact eq_hlt_or_unknown_of_haltingOpcode (s.fetchInstr_opcode.symm ▸ hhalting)

@[simp] theorem State.setPc_self (s : State) : s.setPc s.pc = s := rfl

/-- Settles O33: a jump taken to its own address writes to PC what PC holds, so the state steps to
itself. -/
theorem jumpToItselfNeverHalts : Obligations.JumpToItselfNeverHalts := by
  unfold Obligations.JumpToItselfNeverHalts
  intro n s hrun hself hop
  refine run_of_step_self ?_ n
  rw [step_running_eq_exec s hrun]
  rcases hop with hjmp | ⟨hjz, hz⟩
  · have hfetch : s.fetchInstr = .jmp s.pc := hself ▸ State.fetchInstr_of_opcode hjmp
    rw [hfetch, exec_jmp_eq, State.setPc_self]
  · have hfetch : s.fetchInstr = .jz s.pc := hself ▸ State.fetchInstr_of_opcode hjz
    rw [hfetch, exec_jz_of_zero s.pc s hz, State.setPc_self]

end Sys2Proof.Machine
end

section
/-! Proofs of the statements of 42_arithmetic.md on SUB: the difference as a residue, when it is
zero, and SUB as the inverse of ADD. -/

namespace Sys2Proof.Machine

open Sys2Proof

/-- The difference is the least non-negative residue (R13, R148). -/
theorem aluSub_toNat_eq_emod (x y : Byte) :
    ((aluSub x y).toNat : Int) = ((x.toNat : Int) - (y.toNat : Int)) % 256 := by
  rw [aluSub_toNat]
  have hy := y.isLt
  omega

/-- Two bytes have a zero difference only when they are equal. -/
theorem aluSub_toNat_eq_zero_iff (x y : Byte) : (aluSub x y).toNat = 0 ↔ x = y := by
  rw [aluSub_toNat, ← BitVec.toNat_inj]
  have hx := x.isLt
  have hy := y.isLt
  omega

theorem nextState_sub_z_iff (s : State) :
    (nextState .sub s).z = true ↔ (nextState .sub s).a.toNat = 0 :=
  zeroFlag_eq_true _

/-- SUB sets Z exactly on equal registers (R148). -/
theorem nextState_sub_z_iff_eq (s : State) : (nextState .sub s).z = true ↔ s.a = s.b :=
  (nextState_sub_z_iff s).trans (aluSub_toNat_eq_zero_iff s.a s.b)

/-- Settles O6: at opcode 0x06 the fetched instruction is SUB, which has no data access; its next
state writes A, Z and PC. -/
theorem subWrapsAndSetsZero : Obligations.SubWrapsAndSetsZero := by
  unfold Obligations.SubWrapsAndSetsZero
  refine ⟨rfl, fun s hrun hop => ?_, fun s => ?_⟩
  · have hfetch : s.fetchInstr = .sub := State.fetchInstr_of_opcode hop
    exact step_and_accesses_of_fetchInstr hrun hfetch
  · have hpc : (nextState .sub s).pc.toNat = (s.pc.toNat + 1) % 256 := State.advance_pc_toNat _ 1
    have hb := nextState_b .sub s (by simp [Instr.opcode])
    have hrunKept := nextState_run .sub s rfl (by simp [HaltingOpcode, Instr.opcode])
    have hmem := nextState_mem .sub s (by simp [Instr.opcode])
    exact ⟨_, exec_eq .sub s, aluSub_toNat_eq_emod s.a s.b, nextState_sub_z_iff s,
      nextState_sub_z_iff_eq s, hpc, hb, hrunKept, nextState_sp _ s, nextState_addrMode _ s,
      memorySame_of_mem_eq hmem⟩

theorem aluSub_aluAdd (x y : Byte) : aluSub (aluAdd x y) y = x := by
  refine BitVec.eq_of_toNat_eq ?_
  rw [aluSub_toNat, aluAdd_toNat]
  have hx := x.isLt
  have hy := y.isLt
  omega

theorem aluAdd_aluSub (x y : Byte) : aluAdd (aluSub x y) y = x := by
  refine BitVec.eq_of_toNat_eq ?_
  rw [aluAdd_toNat, aluSub_toNat]
  have hx := x.isLt
  have hy := y.isLt
  omega

theorem zeroFlag_iff_eq_zero (r : Byte) : zeroFlag r = true ↔ r = 0x00 :=
  beq_iff_eq

/-- Settles O23: the two operations of the ALU are inverse to each other with B fixed, and Z is that
of the restored result. -/
theorem addAndSubAreInverse : Obligations.AddAndSubAreInverse := by
  unfold Obligations.AddAndSubAreInverse
  refine ⟨fun s => ?_, fun s => ?_⟩
  · have ha : (nextState .sub (nextState .add s)).a = s.a := aluSub_aluAdd s.a s.b
    have hz : (nextState .sub (nextState .add s)).z = true ↔ s.a = 0x00 := by
      rw [← ha]
      exact zeroFlag_iff_eq_zero _
    exact ⟨_, _, exec_eq .add s, exec_eq .sub _, ha, rfl, hz⟩
  · have ha : (nextState .add (nextState .sub s)).a = s.a := aluAdd_aluSub s.a s.b
    have hz : (nextState .add (nextState .sub s)).z = true ↔ s.a = 0x00 := by
      rw [← ha]
      exact zeroFlag_iff_eq_zero _
    exact ⟨_, _, exec_eq .sub s, exec_eq .add _, ha, rfl, hz⟩

end Sys2Proof.Machine
end

section
/-! Proofs of the statements of 10_state.md and 20_memory.md on what a step does not read: the
effective address, and the cells, the policy, SP and Z that leave a step as it is. -/

namespace Sys2Proof.Machine

open Sys2Proof

/-- Adding the offset base modulo 256 inverts bit 7 alone (R52). -/
theorem add_offsetBase_eq_xor (op : Byte) : op + Config.offsetBase = op ^^^ 0x80 := by
  revert op
  decide

/-- The policy's address of the policy's address is the operand. -/
theorem effectiveAddress_effectiveAddress (m : AddrMode) (op : Byte) :
    effectiveAddress m (effectiveAddress m op) = op := by
  cases m with
  | direct => rfl
  | offset =>
    change op + Config.offsetBase + Config.offsetBase = op
    rw [add_offsetBase_eq_xor, add_offsetBase_eq_xor, BitVec.xor_assoc, BitVec.xor_self,
      BitVec.xor_zero]

/-- Under offset bit 7 of the address is inverted and the others are the operand's. -/
theorem getLsbD_effectiveAddress_offset (op : Byte) {i : Nat} (hi : i < 8) :
    (effectiveAddress .offset op).getLsbD i = (op.getLsbD i ^^ decide (i = 7)) := by
  have hbase : ∀ i < 8, (0x80 : Byte).getLsbD i = decide (i = 7) := by decide
  change (op + Config.offsetBase).getLsbD i = _
  rw [add_offsetBase_eq_xor, BitVec.getLsbD_xor, hbase i hi]

/-- Settles O17: each policy by its equation; the address of an operand's address is the operand. -/
theorem effectiveAddressFollowsThePolicy : Obligations.EffectiveAddressFollowsThePolicy := by
  unfold Obligations.EffectiveAddressFollowsThePolicy
  intro s op
  refine ⟨fun hdirect => ?_, fun hoffset => ?_, s.ea op,
    effectiveAddress_effectiveAddress s.addrMode op⟩
  · rw [State.ea, hdirect, effectiveAddress_direct]
  · rw [State.ea, hoffset]
    refine ⟨effectiveAddress_offset_toNat op, ?_, fun i hi => ?_⟩
    · rw [getLsbD_effectiveAddress_offset op (by omega), decide_eq_true rfl, Bool.xor_true]
    · rw [getLsbD_effectiveAddress_offset op (by omega), decide_eq_false (by omega), Bool.xor_false]

/-- A change of the state that keeps RUN and the fetch, and that the fetched instruction carries
through, is carried through the step. -/
theorem step_map {f : State → State} {s t : State} (hrun : (f s).run = s.run)
    (hfetch : (f s).fetchInstr = s.fetchInstr)
    (hnext : nextState s.fetchInstr (f s) = f (nextState s.fetchInstr s))
    (hstep : step s = .next t) : step (f s) = .next (f t) := by
  obtain ⟨hhalted, rfl⟩ | ⟨hrunning, rfl⟩ := step_cases hstep
  · exact step_halted _ (hrun.trans hhalted)
  · rw [step_running _ (hrun.trans hrunning), hfetch, hnext]

/-- An instruction without an operand in memory carries any policy through (R54). -/
theorem nextState_with_addrMode (i : Instr) (s : State) (m : AddrMode)
    (h : i.opcode ∉ [(0x01 : Byte), 0x02, 0x03, 0x04]) :
    nextState i { s with addrMode := m } = { nextState i s with addrMode := m } := by
  cases i with
  | lda _ | sta _ | ldb _ | stb _ => simp [Instr.opcode] at h
  | jz op => simp only [nextState_jz, State.setPc]
  | _ => rfl

/-- Settles O19: the policy reaches neither RUN nor the fetch, and no instruction but loads and
stores. -/
theorem policySelectsOnlyTheAddress : Obligations.PolicySelectsOnlyTheAddress := by
  unfold Obligations.PolicySelectsOnlyTheAddress
  intro s t m hstep hop
  rw [← s.fetchInstr_opcode] at hop
  exact step_map (f := fun u => { u with addrMode := m }) rfl rfl
    (nextState_with_addrMode _ s m hop) hstep

/-- Every instruction carries any value of SP through (R26). -/
theorem nextState_with_sp (i : Instr) (s : State) (v : Byte) :
    nextState i { s with sp := v } = { nextState i s with sp := v } := by
  cases i with
  | jz op => simp only [nextState_jz, State.setPc]
  | _ => rfl

theorem step_sp {s t : State} (h : step s = .next t) : t.sp = s.sp := by
  obtain ⟨-, rfl⟩ | ⟨-, rfl⟩ := step_cases h
  · rfl
  · exact nextState_sp _ s

/-- Settles O34: no instruction reads SP, and none writes it. -/
theorem stackPointerIsNeverRead : Obligations.StackPointerIsNeverRead := by
  unfold Obligations.StackPointerIsNeverRead
  refine ⟨fun s t v hstep => ?_, fun s t hzero hstep => (step_sp hstep).trans hzero⟩
  exact step_map (f := fun u => { u with sp := v }) rfl rfl (nextState_with_sp _ s v) hstep

/-- An instruction reads no cell but those of its data access: with another memory that agrees
there, the registers come out the same. -/
theorem nextState_with_mem (i : Instr) (s : State) (m : Memory)
    (h : ∀ x : Byte, Access.read x ∈ dataAccesses i s → Memory.read m x.toNat = s.readMem x) :
    { nextState i { s with mem := m } with mem := (nextState i s).mem } = nextState i s := by
  cases i with
  | lda op | ldb op =>
    have hload : ({ s with mem := m } : State).loadOperand op = s.loadOperand op :=
      h (s.ea op) (by simp)
    simp only [nextState, hload]
    rfl
  | jz op => simp only [nextState_jz, State.setPc]
  | _ => rfl

/-- Settles O16: the two fetches agree, so both machines run one instruction, which reads no cell
but those of its data access. -/
theorem stepDependsOnlyOnCellsRead : Obligations.StepDependsOnlyOnCellsRead := by
  unfold Obligations.StepDependsOnlyOnCellsRead
  intro s t m hstep hagree
  obtain ⟨hhalted, rfl⟩ | ⟨hrun, rfl⟩ := step_cases hstep
  · exact ⟨_, step_halted _ hhalted, rfl⟩
  · rw [State.stepAccesses_running s hrun] at hagree
    have hop := hagree s.pc (by simp)
    have hoperand := hagree (s.pc + 1) (by simp)
    have hfetch : ({ s with mem := m } : State).fetchInstr = s.fetchInstr :=
      congrArg₂ decodeFetched hop hoperand
    refine ⟨_, step_running _ hrun, ?_⟩
    rw [hfetch]
    exact nextState_with_mem _ s m fun x hx => hagree x (by simp [hx])

/-- Only JZ reads Z: any other instruction gives the same state but for Z itself (R24). -/
theorem nextState_with_z (i : Instr) (s : State) (v : Bool) (h : i.opcode ≠ 0x08) :
    { nextState i { s with z := v } with z := (nextState i s).z } = nextState i s := by
  cases i with
  | jz op => exact absurd rfl h
  | _ => rfl

/-- ADD and SUB take Z from the result they write to A (R140). -/
theorem nextState_z_iff_of_arithmetic {i : Instr} (s : State)
    (h : i.opcode ∈ [(0x05 : Byte), 0x06]) (hwf : i.wellFormed = true) :
    (nextState i s).z = true ↔ (nextState i s).a.toNat = 0 := by
  cases i with
  | add => exact nextState_add_z_iff s
  | sub => exact nextState_sub_z_iff s
  | unknown opcode =>
    refine absurd ?_ ((wellFormed_unknown_iff opcode).mp hwf)
    simp only [Instr.opcode, definedOpcodes, List.mem_cons] at h ⊢
    tauto
  | _ => simp [Instr.opcode] at h

/-- Settles O20: arithmetic sets Z from its result, the frame of Z is that of the other opcodes, and
only JZ reads it. -/
theorem zeroFlagTracksTheLastResult : Obligations.ZeroFlagTracksTheLastResult := by
  unfold Obligations.ZeroFlagTracksTheLastResult
  refine ⟨fun s t hrun hstep => ?_, fun s t v hrun hstep hop => ?_, State.resetIn_z⟩
  all_goals
    obtain rfl := eq_nextState_of_step hrun hstep
  · rw [← s.fetchInstr_opcode]
    split
    · next h => exact nextState_z_iff_of_arithmetic s (by simpa using h) s.fetchInstr_wellFormed
    · next h => exact nextState_z _ s (by simpa using h)
  · rw [← s.fetchInstr_opcode] at hop
    exact ⟨_, step_running _ hrun, nextState_with_z _ s v hop⟩

theorem step_z {s t : State} (hstep : step s = .next t) (h5 : s.readMem s.pc ≠ 0x05)
    (h6 : s.readMem s.pc ≠ 0x06) : t.z = s.z := by
  obtain ⟨-, rfl⟩ | ⟨-, rfl⟩ := step_cases hstep
  · rfl
  · refine nextState_z _ s ?_
    simpa [s.fetchInstr_opcode] using And.intro h5 h6

theorem exists_step (s : State) : ∃ t, step s = .next t := by
  cases hrun : s.run with
  | false => exact ⟨s, step_halted s hrun⟩
  | true => exact ⟨_, step_running s hrun⟩

/-- Settles O21, by induction on the number of steps: the first keeps Z, and the rest start from its
next state. -/
theorem zeroFlagPersistsBetweenArithmetic : Obligations.ZeroFlagPersistsBetweenArithmetic := by
  unfold Obligations.ZeroFlagPersistsBetweenArithmetic
  intro n
  induction n with
  | zero =>
    intro s t hsteps _
    obtain rfl := Host.Outcome.next.inj hsteps
    rfl
  | succ n ih =>
    intro s t hsteps hopcodes
    obtain ⟨u, hu⟩ := exists_step s
    obtain ⟨h5, h6⟩ := hopcodes 0 s (by omega) rfl
    rw [run_succ n s u hu] at hsteps
    have hrest := ih u t hsteps fun k w hk hw =>
      hopcodes (k + 1) w (by omega) ((run_succ k s u hu).trans hw)
    exact hrest.trans (step_z hu h5 h6)

end Sys2Proof.Machine
end

section
/-! Proofs of the statements of 30_encoding.md: decoding is inverse to encoding both ways, the
unknown opcodes, the words of the table, and the step that runs the bytes at PC. -/

namespace Sys2Proof.Machine

open Sys2Proof

/-- The two formats (R81, R82): one byte that selects the instruction whatever follows it, or the
opcode and the operand. -/
theorem encode_cases {i : Instr} (h : i.wellFormed = true) :
    (encode i = [i.opcode] ∧ i.byteCount = 1 ∧ ∀ next, decodeFetched i.opcode next = i) ∨
    (∃ operand, encode i = [i.opcode, operand] ∧ i.byteCount = 2 ∧
      decodeFetched i.opcode operand = i) := by
  cases i with
  | add | sub | hlt => exact .inl ⟨rfl, rfl, fun _ => rfl⟩
  | unknown opcode =>
    have hundefined := (wellFormed_unknown_iff opcode).mp h
    exact .inl ⟨rfl, rfl, fun next => decodeFetched_of_not_defined next hundefined⟩
  | lda operand | sta operand | ldb operand | stb operand | jmp operand | jz operand =>
    exact .inr ⟨operand, rfl, rfl, rfl⟩

/-- Format F1: the byte after the opcode stays in the rest. -/
theorem decode_of_byteCount_one {opcode : Byte} {i : Instr}
    (hi : ∀ next, decodeFetched opcode next = i) (hlen : i.byteCount = 1) (rest : List Byte) :
    decode (opcode :: rest) = .ok (i, rest) := by
  cases rest with
  | nil => rw [decode, hi, if_pos hlen]
  | cons next rest => rw [decode, hi, if_pos hlen]

/-- Format F2: the byte after the opcode is the operand. -/
theorem decode_of_byteCount_two {opcode operand : Byte} {i : Instr}
    (hi : decodeFetched opcode operand = i) (hlen : i.byteCount = 2) (rest : List Byte) :
    decode (opcode :: operand :: rest) = .ok (i, rest) := by
  rw [decode, hi, if_neg (by omega)]

theorem decode_encode {i : Instr} (h : i.wellFormed = true) (rest : List Byte) :
    decode (encode i ++ rest) = .ok (i, rest) := by
  rcases encode_cases h with ⟨henc, hlen, hi⟩ | ⟨operand, henc, hlen, hi⟩
  · rw [henc]
    exact decode_of_byteCount_one hi hlen rest
  · rw [henc]
    exact decode_of_byteCount_two hi hlen rest

/-- Settles O42, by the two formats. -/
theorem decodeInvertsEncode : Obligations.DecodeInvertsEncode := by
  unfold Obligations.DecodeInvertsEncode
  exact fun i rest h => decode_encode h rest

/-- Settles O45: each word is the encoding of a well-formed instruction, ADD with a byte after it.
-/
theorem wordsOfTheOpcodeMapDecode : Obligations.WordsOfTheOpcodeMapDecode := by
  unfold Obligations.WordsOfTheOpcodeMapDecode
  exact ⟨decode_encode (i := .lda 0x30) rfl [], decode_encode (i := .sta 0x02) rfl [],
    decode_encode (i := .add) rfl [0x02], decode_encode (i := .jz 0x09) rfl [],
    decode_encode (i := .hlt) rfl [], decode_encode (i := .unknown 0x09) rfl []⟩

/-- The two-byte opcodes are those of the format F2 (R82, R85). -/
theorem decodeFetched_byteCount (opcode operand : Byte) :
    (decodeFetched opcode operand).byteCount =
      if opcode ∈ [(0x01 : Byte), 0x02, 0x03, 0x04, 0x07, 0x08] then 2 else 1 := by
  rcases decodeFetched_cases opcode operand with ⟨rfl, hi⟩ | ⟨rfl, hi⟩ | ⟨rfl, hi⟩ | ⟨rfl, hi⟩ |
    ⟨rfl, hi⟩ | ⟨rfl, hi⟩ | ⟨rfl, hi⟩ | ⟨rfl, hi⟩ | ⟨rfl, hi⟩ | ⟨hundefined, hi⟩
  pick_goal 10
  · have hone : opcode ∉ [(0x01 : Byte), 0x02, 0x03, 0x04, 0x07, 0x08] := by
      simp only [definedOpcodes, List.mem_cons, List.not_mem_nil, or_false, not_or] at hundefined ⊢
      tauto
    rw [hi, if_neg hone]
    rfl
  all_goals
    rw [hi]
    rfl

/-- Encoding what was fetched gives the fetched bytes back, as many as the format takes. -/
theorem encode_decodeFetched (opcode operand : Byte) :
    encode (decodeFetched opcode operand) =
      if (decodeFetched opcode operand).byteCount = 1 then [opcode] else [opcode, operand] := by
  rcases decodeFetched_cases opcode operand with ⟨rfl, hi⟩ | ⟨rfl, hi⟩ | ⟨rfl, hi⟩ | ⟨rfl, hi⟩ |
    ⟨rfl, hi⟩ | ⟨rfl, hi⟩ | ⟨rfl, hi⟩ | ⟨rfl, hi⟩ | ⟨rfl, hi⟩ | ⟨-, hi⟩
  all_goals
    rw [hi]
    rfl

/-- With two bytes to read nothing is refused; what is left depends on the format. -/
theorem decode_cons_cons (opcode operand : Byte) (rest : List Byte) :
    decode (opcode :: operand :: rest) =
      .ok (decodeFetched opcode operand,
        if (decodeFetched opcode operand).byteCount = 1 then operand :: rest else rest) := by
  rw [decode]
  split <;> rfl

/-- What an accepted list of bytes decodes to is what its first two bytes are fetched as. -/
theorem encode_of_decode {bytes rest : List Byte} {i : Instr} (h : decode bytes = .ok (i, rest)) :
    i.wellFormed = true ∧ encode i ++ rest = bytes := by
  match bytes with
  | [] => cases h
  | [opcode] =>
    rw [decode] at h
    split at h
    · next hlen =>
      cases h
      rw [encode_decodeFetched, if_pos hlen]
      exact ⟨decodeFetched_wellFormed _ _, rfl⟩
    · cases h
  | opcode :: operand :: tail =>
    rw [decode_cons_cons] at h
    cases h
    refine ⟨decodeFetched_wellFormed opcode operand, ?_⟩
    rw [encode_decodeFetched]
    split <;> rfl

/-- Only the empty list and the opcode of an F2 instruction alone are refused. -/
theorem decode_refused {bytes : List Byte} {e : DecodeError} (h : decode bytes = .error e) :
    (bytes = [] ∧ e = .noOpcode) ∨
    (e = .noOperand ∧ ∃ op, bytes = [op] ∧ op ∈ [(0x01 : Byte), 0x02, 0x03, 0x04, 0x07, 0x08]) := by
  match bytes with
  | [] =>
    cases h
    exact .inl ⟨rfl, rfl⟩
  | [opcode] =>
    rw [decode] at h
    split at h
    · cases h
    · next hlen =>
      cases h
      rw [decodeFetched_byteCount] at hlen
      refine .inr ⟨rfl, opcode, rfl, ?_⟩
      by_contra hone
      exact hlen (if_neg hone)
  | opcode :: operand :: tail =>
    rw [decode_cons_cons] at h
    cases h

/-- Settles O43: accepted and refused lists, each by the length of the list. -/
theorem encodeInvertsDecode : Obligations.EncodeInvertsDecode := by
  unfold Obligations.EncodeInvertsDecode
  exact ⟨fun _ _ _ => encode_of_decode, fun _ _ => decode_refused⟩

/-- A byte is an unknown opcode exactly when no instruction is defined for it (R86). -/
theorem decodeFetched_eq_unknown_iff (opcode operand : Byte) :
    decodeFetched opcode operand = .unknown opcode ↔ opcode ∉ definedOpcodes := by
  refine ⟨fun h => ?_, decodeFetched_of_not_defined operand⟩
  rw [← wellFormed_unknown_iff, ← h]
  exact decodeFetched_wellFormed opcode operand

/-- The ranges of the unknown set as numbers, for a listing of all byte values. -/
theorem decodeFetched_ofNat_eq_unknown_iff {n : Nat} (h : n < 256) :
    decodeFetched (BitVec.ofNat 8 n) 0x00 = .unknown (BitVec.ofNat 8 n) ↔
      n = 0 ∨ (9 ≤ n ∧ n ≤ 0xFE) := by
  rw [decodeFetched_eq_unknown_iff, not_mem_definedOpcodes_iff, ← BitVec.toNat_inj,
    BitVec.toNat_ofNat, Nat.mod_eq_of_lt h]
  rfl

/-- One value below 9, and the 246 from 9 to 0xFE. -/
theorem length_filter_unknown_values :
    ((List.range 256).filter fun n => decide (n = 0 ∨ (9 ≤ n ∧ n ≤ 0xFE))).length = 247 := by
  have hparts : List.range 256 = List.range' 0 9 ++ (List.range' 9 246 ++ List.range' 255 1) := by
    rw [List.range_eq_range', List.range'_append_1, List.range'_append_1]
  have hmiddle : (List.range' 9 246).filter (fun n => decide (n = 0 ∨ (9 ≤ n ∧ n ≤ 0xFE))) =
      List.range' 9 246 := by
    refine List.filter_eq_self.mpr fun n hn => decide_eq_true ?_
    have hrange := List.mem_range'_1.mp hn
    omega
  rw [hparts, List.filter_append, List.filter_append, hmiddle, List.length_append,
    List.length_append, List.length_range']
  rfl

/-- Settles O44: the unknown opcodes are the complement of the defined ones, counted range by range. -/
theorem unknownOpcodesAreExactly247 : Obligations.UnknownOpcodesAreExactly247 := by
  unfold Obligations.UnknownOpcodesAreExactly247
  refine ⟨fun opcode operand => ?_, ?_⟩
  · rw [decodeFetched_eq_unknown_iff, not_mem_definedOpcodes_iff]
  · rw [List.filter_congr fun n hn =>
      decide_eq_decide.mpr (decodeFetched_ofNat_eq_unknown_iff (List.mem_range.mp hn))]
    exact length_filter_unknown_values

/-- Without SUB the byte 0x06 alone decodes otherwise (R9). -/
theorem decodeIn_false_of_ne_sub {opcode : Byte} (operand : Byte) (h : opcode ≠ 0x06) :
    decodeIn false opcode operand = decodeFetched opcode operand := by
  unfold decodeFetched decodeIn
  split
  case h_6 => exact absurd rfl h
  all_goals rfl

/-- Settles O24, by the byte 0x06 and the others. -/
theorem subAbsentMakes06Unknown : Obligations.SubAbsentMakes06Unknown := by
  unfold Obligations.SubAbsentMakes06Unknown
  exact ⟨fun _ => rfl, fun _ => rfl, fun _ operand h => decodeIn_false_of_ne_sub operand h⟩

/-- The fetch of the bytes of a well-formed instruction is that instruction, whatever byte follows a
one-byte one (R102 to R104). -/
theorem State.fetchInstr_of_encode {s : State} {i : Instr} (hwf : i.wellFormed = true)
    (h : encode i = [s.readMem s.pc] ∨ encode i = [s.readMem s.pc, s.readMem (s.pc + 1)]) :
    s.fetchInstr = i := by
  rcases encode_cases hwf with ⟨henc, -, hi⟩ | ⟨operand, henc, -, hi⟩ <;> rw [henc] at h
  · have hop : s.readMem s.pc = i.opcode := by simpa [eq_comm] using h
    rw [State.fetchInstr_of_opcode hop, hi]
  · obtain ⟨hop, hoperand⟩ : s.readMem s.pc = i.opcode ∧ s.readMem (s.pc + 1) = operand := by
      simpa [eq_comm] using h
    rw [State.fetchInstr_of_opcode hop, hoperand, hi]

/-- Settles O12: a running step is `exec` of the fetched instruction, which is the encoded one. -/
theorem stepRunsTheDecodedInstruction : Obligations.StepRunsTheDecodedInstruction := by
  unfold Obligations.StepRunsTheDecodedInstruction
  intro s i hrun hwf hbytes
  rw [step_running_eq_exec s hrun, State.fetchInstr_of_encode hwf hbytes]

/-- The operand's address is never the opcode's, also where it wraps (R103). -/
theorem State.pc_ne_pc_add_one (s : State) : s.pc ≠ s.pc + 1 := by
  bv_omega

/-- The bytes placed at PC and after it are those the next step fetches. -/
theorem State.fetchInstr_placeFetched (s : State) (opcode operand : Byte) :
    (s.placeFetched opcode operand).fetchInstr = decodeFetched opcode operand := by
  have hop : ((s.writeMem s.pc opcode).writeMem (s.pc + 1) operand).readMem s.pc = opcode := by
    rw [State.readMem_writeMem, if_neg s.pc_ne_pc_add_one, State.readMem_writeMem, if_pos rfl]
  have hoperand :
      ((s.writeMem s.pc opcode).writeMem (s.pc + 1) operand).readMem (s.pc + 1) = operand := by
    rw [State.readMem_writeMem, if_pos rfl]
  exact congrArg₂ decodeFetched hop hoperand

/-- A word of the table is read as its two bytes are fetched. -/
theorem decodeTableWord_eq (nbits w : Nat) :
    decodeTableWord nbits w = some (decodeFetched (tableByte nbits w 0) (tableByte nbits w 1)) := by
  rw [decodeTableWord, decode_cons_cons]

/-- Settles O46: the placed state runs, and fetches the word's two bytes. -/
theorem placedInstructionIsTheNextStep : Obligations.PlacedInstructionIsTheNextStep := by
  unfold Obligations.PlacedInstructionIsTheNextStep
  intro s i nbits w hword
  rw [decodeTableWord_eq] at hword
  obtain rfl := Option.some.inj hword
  refine ⟨?_, rfl, memorySameExcept_of_mem_eq_write rfl⟩
  rw [step_running_eq_exec _ rfl, State.withFetchWord, State.fetchInstr_placeFetched]

theorem load_run (s : State) (image : List (Byte × Byte)) : (s.load image).run = s.run := by
  have h := congrArg State.run (load_registers s image)
  exact h

/-- The listing of one instruction loads its encoding at PC and after it (R90). -/
theorem load_assemble_instr_fetches (s : State) {i : Instr} (hwf : i.wellFormed = true) :
    (s.load (assemble s.pc [.instr i])).fetchInstr = i := by
  rcases encode_cases hwf with ⟨henc, -, hi⟩ | ⟨operand, henc, -, hi⟩
  · have hload : s.load (assemble s.pc [.instr i]) = s.writeMem s.pc i.opcode := by
      simp [assemble, henc, placeBytes, State.load]
    have hop : (s.writeMem s.pc i.opcode).readMem s.pc = i.opcode := by
      rw [State.readMem_writeMem, if_pos rfl]
    rw [hload, State.fetchInstr_of_opcode hop, hi]
  · have hload : s.load (assemble s.pc [.instr i]) =
        (s.writeMem s.pc i.opcode).writeMem (s.pc + 1) operand := by
      simp [assemble, henc, placeBytes, State.load]
    rw [hload]
    exact (s.fetchInstr_placeFetched i.opcode operand).trans hi

/-- Settles O47: a load leaves RUN as it is, and the loaded bytes are fetched as the instruction. -/
theorem assembledInstructionRuns : Obligations.AssembledInstructionRuns := by
  unfold Obligations.AssembledInstructionRuns
  intro s i hrun hwf
  rw [step_running_eq_exec _ ((load_run s _).trans hrun), load_assemble_instr_fetches s hwf]

end Sys2Proof.Machine
end

section
/-! Proofs of the statements of 20_memory.md section 6 and the copy law of 41_load_store.md: the
step at a store as one state, and a load with the store after it. -/

namespace Sys2Proof.Machine

open Sys2Proof

/-- A running step at STA or STB stores `v`, the byte of its register, through the operand fetched
before the store (R122, R124). -/
theorem step_store {s : State} {v : Byte} (hrun : s.run = true)
    (hop : (s.readMem s.pc = 0x02 ∧ v = s.a) ∨ (s.readMem s.pc = 0x04 ∧ v = s.b)) :
    step s = .next ((s.storeOperand (s.readMem (s.pc + 1)) v).advance 2) := by
  rw [step_running s hrun]
  rcases hop with ⟨hop, rfl⟩ | ⟨hop, rfl⟩
  · rw [State.fetchInstr_of_opcode hop]
    rfl
  · rw [State.fetchInstr_of_opcode hop]
    rfl

/-- Settles O25: the stored byte is what the next state reads at the store's address, so also what
it fetches there. -/
theorem storeIsSeenByTheNextFetch : Obligations.StoreIsSeenByTheNextFetch := by
  unfold Obligations.StoreIsSeenByTheNextFetch
  intro s t v hrun hop hstep
  rw [step_store hrun hop] at hstep
  obtain rfl := Host.Outcome.next.inj hstep
  have hcell := (State.readMem_advance _ 2 _).trans
    (State.readMem_storeOperand_ea s (s.readMem (s.pc + 1)) v)
  refine ⟨hcell, fun hpc => ?_, fun hpc => ?_, hrun, rfl⟩
  · rw [hpc] at hcell
    exact State.fetchInstr_of_opcode hcell
  · rw [hpc] at hcell
    exact congrArg (decodeFetched _) hcell

/-- A step that keeps memory and the policy and advances to a store, then that store: the stored
byte is at the address of the store's operand (R125). -/
theorem run_two_store {s u : State} {v : Byte} (hload : step s = .next u) (hrun : u.run = true)
    (hmem : u.mem = s.mem) (hmode : u.addrMode = s.addrMode) (hpc : u.pc = s.pc + 2)
    (hop : (s.readMem (s.pc + 2) = 0x02 ∧ v = u.a) ∨ (s.readMem (s.pc + 2) = 0x04 ∧ v = u.b)) :
    ∃ t, core.run 2 s = .next t ∧ t.readMem (s.ea (s.readMem (s.pc + 3))) = v ∧
      t.a = u.a ∧ t.b = u.b ∧ t.pc = s.pc + 4 := by
  have hread := State.readMem_congr s u hmem
  rw [← hread, ← hpc] at hop
  have hnext : u.pc + 1 = s.pc + 3 := by
    rw [hpc, BitVec.add_assoc]
    rfl
  have hea : u.ea (u.readMem (u.pc + 1)) = s.ea (s.readMem (s.pc + 3)) := by
    rw [hread, hnext, State.ea, State.ea, hmode]
  refine ⟨_, (run_succ 1 s u hload).trans (run_succ 0 u _ (step_store hrun hop)), ?_, rfl, rfl, ?_⟩
  · rw [← hea, State.readMem_advance, State.readMem_storeOperand_ea]
  · rw [State.advance_pc, State.storeOperand_pc, hpc, BitVec.add_assoc]
    rfl

/-- Settles O26: the load leaves memory, the policy and the address of the store as the store needs
them. -/
theorem loadThenStoreCopiesACell : Obligations.LoadThenStoreCopiesACell := by
  unfold Obligations.LoadThenStoreCopiesACell
  refine fun s hrun => ⟨fun hload hstore => ?_, fun hload hstore => ?_⟩
  · have hstep := step_running s hrun
    rw [State.fetchInstr_of_opcode hload] at hstep
    obtain ⟨t, ht, hcell, ha, -, hpc⟩ :=
      run_two_store hstep hrun rfl rfl rfl (.inl ⟨hstore, rfl⟩)
    exact ⟨t, ht, hcell, ha, hpc⟩
  · have hstep := step_running s hrun
    rw [State.fetchInstr_of_opcode hload] at hstep
    obtain ⟨t, ht, hcell, -, hb, hpc⟩ :=
      run_two_store hstep hrun rfl rfl rfl (.inr ⟨hstore, rfl⟩)
    exact ⟨t, ht, hcell, hb, hpc⟩

end Sys2Proof.Machine
end

section
/-! Proofs of the statements of 10_state.md sections 2 and 3 and 70_reset_and_hazards.md: the reset
state, the load window, and the host's moves around a run. -/

namespace Sys2Proof.Machine

open Sys2Proof

/-- Settles O36: no cell is listed after reset, RUN is true, and SP is zero. -/
theorem resetMeetsTheInvariants : Obligations.ResetMeetsTheInvariants := by
  unfold Obligations.ResetMeetsTheInvariants
  refine fun m => ⟨Memory.wf_nil, fun hfalse => ?_, State.resetIn_sp m⟩
  rw [State.resetIn_run] at hfalse
  cases hfalse

/-- Settles O37: the byte at PC after reset is zero, an unknown opcode, so the step is `halt`. -/
theorem emptyMachineHaltsAtZero : Obligations.EmptyMachineHaltsAtZero := by
  unfold Obligations.EmptyMachineHaltsAtZero
  intro m
  have hfetch : (State.resetIn m).fetchInstr = .unknown 0x00 :=
    State.fetchInstr_of_opcode (State.readMem_resetIn m _)
  rw [step_running_eq_exec _ (State.resetIn_run m), hfetch, exec_eq]
  rfl

@[simp] theorem Platform.move_reset (p : Platform) (m : AddrMode) :
    p.move (.reset m) = some ⟨State.resetIn m, true⟩ := rfl

@[simp] theorem Platform.move_tick_false (p : Platform) : p.move (.tick false) = some p := rfl

theorem Platform.moves_cons {p q : Platform} {m : HostMove} (h : p.move m = some q)
    (rest : List HostMove) : p.moves (m :: rest) = q.moves rest := by
  rw [Platform.moves, h]

theorem Platform.moves_replicate_tick_false (p : Platform) (n : Nat) :
    p.moves (List.replicate n (.tick false)) = some p := by
  induction n with
  | zero => rfl
  | succ n ih => rw [List.replicate_succ, Platform.moves_cons p.move_tick_false, ih]

/-- Settles O38: whatever the history leads to, a reset and an idle tick each do the same from
there. -/
theorem resetWinsAndRunEnableHolds : Obligations.ResetWinsAndRunEnableHolds := by
  unfold Obligations.ResetWinsAndRunEnableHolds
  intro p q m m' moves n hq
  refine ⟨?_, ?_, ?_⟩
  · rw [moves_append, hq]
    rfl
  · rw [moves_append, moves_append, hq]
    rfl
  · rw [moves_append, hq]
    exact q.moves_replicate_tick_false n

/-- In the load window any list of writes is a load, and leaves the window open (R234). -/
theorem Platform.moves_writes (s : State) (image : List (Byte × Byte)) :
    Platform.moves ⟨s, true⟩ (image.map fun cell => HostMove.write cell.1 cell.2) =
      some ⟨s.load image, true⟩ := by
  induction image generalizing s with
  | nil => rfl
  | cons cell rest ih =>
    rw [List.map_cons, Platform.moves_cons rfl, ih, load_cons]

/-- After a load each cell reads the last byte written to it, or what it held. -/
theorem State.readMem_load (s : State) (image : List (Byte × Byte)) (x : Byte) :
    (s.load image).readMem x =
      ((image.reverse.find? fun cell => cell.1 == x).map Prod.snd).getD (s.readMem x) := by
  induction image generalizing s with
  | nil => rfl
  | cons cell rest ih =>
    rw [load_cons, ih, State.readMem_writeMem, List.reverse_cons, List.find?_append]
    cases rest.reverse.find? fun cell => cell.1 == x with
    | some later => rfl
    | none =>
      by_cases hx : x = cell.1
      · simp [hx]
      · simp [hx, Ne.symm hx]

/-- Settles O39: the writes are a load, which keeps the registers and the canonical form. -/
theorem loadWindowGivesTheLaunchState : Obligations.LoadWindowGivesTheLaunchState := by
  unfold Obligations.LoadWindowGivesTheLaunchState
  intro p m image
  refine ⟨⟨(State.resetIn m).load image, true⟩, ?_, rfl, rfl,
    load_registers (State.resetIn m) image, wf_load _ image Memory.wf_nil,
    State.readMem_load _ image⟩
  rw [Platform.moves_cons (p.move_reset m), Platform.moves_writes]

/-- The 256 addresses, each with the byte an image gives it. -/
def imageCells (image : Byte → Byte) : List (Byte × Byte) :=
  (List.finRange 256).map fun n => (BitVec.ofFin n, image (BitVec.ofFin n))

theorem mem_imageCells (image : Byte → Byte) (cell : Byte × Byte) :
    cell ∈ imageCells image ↔ cell.2 = image cell.1 := by
  obtain ⟨x, v⟩ := cell
  simp only [imageCells, List.mem_map, List.mem_finRange, true_and, Prod.mk.injEq]
  constructor
  · rintro ⟨n, rfl, rfl⟩
    rfl
  · rintro rfl
    exact ⟨x.toFin, rfl, rfl⟩

theorem readMem_load_imageCells (s : State) (image : Byte → Byte) (x : Byte) :
    (s.load (imageCells image)).readMem x = image x := by
  have hlisted : (x, image x) ∈ (imageCells image).reverse :=
    List.mem_reverse.mpr ((mem_imageCells image _).mpr rfl)
  rw [State.readMem_load]
  cases hfind : (imageCells image).reverse.find? fun cell => cell.1 == x with
  | none => exact absurd (beq_self_eq_true x) (List.find?_eq_none.mp hfind _ hlisted)
  | some cell =>
    have hvalue := (mem_imageCells image cell).mp
      (List.mem_reverse.mp (List.mem_of_find?_eq_some hfind))
    have haddr : cell.1 = x := by simpa using List.find?_some hfind
    exact hvalue.trans (congrArg image haddr)

/-- Settles O40: the writes are the image's 256 cells, one for each address. -/
theorem everyLaunchImageIsLoadable : Obligations.EveryLaunchImageIsLoadable := by
  unfold Obligations.EveryLaunchImageIsLoadable
  exact fun m image => ⟨imageCells image, readMem_load_imageCells _ image⟩

/-- A step closes the load window (R41). -/
theorem Platform.loadWindow_of_tick {p q : Platform} (h : p.move (.tick true) = some q) :
    q.loadWindow = false := by
  simp only [Platform.move, if_true] at h
  split at h <;> cases h
  rfl

/-- Outside the load window a write is a move of the host exactly when RUN is false (R41, R244). -/
theorem Platform.move_write_of_closed {q : Platform} (h : q.loadWindow = false) (addr v : Byte) :
    q.move (.write addr v) = if q.core.run then none else some ⟨q.core.writeMem addr v, false⟩ := by
  cases hrun : q.core.run <;> simp [Platform.move, h, hrun]

/-- Settles O41: the step closed the load window, so RUN alone decides. -/
theorem hostHasNoWriteDuringARun : Obligations.HostHasNoWriteDuringARun := by
  unfold Obligations.HostHasNoWriteDuringARun
  intro p q addr v htick
  rw [Platform.move_write_of_closed (Platform.loadWindow_of_tick htick)]
  refine ⟨fun hrun => if_pos hrun, fun hfalse => ?_⟩
  rw [hfalse]
  refine ⟨_, rfl, ?_, memorySameExcept_of_mem_eq_write rfl⟩
  rw [State.readMem_writeMem, if_pos rfl]

end Sys2Proof.Machine
end

section
/-! Proof of the refinement statement of 40_instruction_cycle.md section 1: what the pseudocode
reads of a state is what the step fetches, and each of its arms is the next state of an instruction.
-/

namespace Sys2Proof.Machine

open Sys2Proof

/-- The memory the pseudocode works on: the cells as numbers. -/
def State.cells (s : State) : Nat → Nat := fun x => (Memory.read s.mem x).toNat

theorem State.cells_toNat (s : State) (x : Byte) : s.cells x.toNat = (s.readMem x).toNat := rfl

/-- The operand's address, reduced, is the byte after PC (R103). -/
theorem State.cells_pc_add_one (s : State) :
    s.cells ((s.pc.toNat + 1) % 256) = (s.readMem (s.pc + 1)).toNat := by
  rw [← State.cells_toNat, BitVec.toNat_add]
  rfl

theorem pseudoEA_toNat (s : State) (op : Byte) :
    pseudoEA s.addrMode op.toNat = (s.ea op).toNat := by
  rw [State.ea]
  cases s.addrMode with
  | direct => rfl
  | offset => exact (effectiveAddress_offset_toNat op).symm

/-- A store is the pseudocode's update of one cell. -/
theorem State.cells_storeOperand (s : State) (op v : Byte) :
    (s.storeOperand op v).cells = updateCell s.cells (s.ea op).toNat v.toNat := by
  funext x
  simp only [State.cells, updateCell, State.storeOperand_mem, Memory.read_write]
  split <;> rfl

@[simp] theorem State.cells_setA (s : State) (v : Byte) : (s.setA v).cells = s.cells := rfl
@[simp] theorem State.cells_setB (s : State) (v : Byte) : (s.setB v).cells = s.cells := rfl
@[simp] theorem State.cells_setPc (s : State) (v : Byte) : (s.setPc v).cells = s.cells := rfl
@[simp] theorem State.cells_advance (s : State) (w : Byte) : (s.advance w).cells = s.cells := rfl
@[simp] theorem State.cells_writeResult (s : State) (r : Byte) :
    (s.writeResult r).cells = s.cells := rfl
@[simp] theorem State.cells_halt (s : State) : s.halt.cells = s.cells := rfl

theorem zeroFlag_eq_decide (r : Byte) : zeroFlag r = decide (r.toNat = 0) := by
  rw [Bool.eq_iff_iff, zeroFlag_eq_true, decide_eq_true_iff]

/-- An undefined opcode selects none of the eight numbered arms of the case statement. -/
theorem toNat_not_numbered_of_not_defined {opcode : Byte} (h : opcode ∉ definedOpcodes) :
    opcode.toNat = 0 ∨ 9 ≤ opcode.toNat := by
  rcases (not_mem_definedOpcodes_iff opcode).mp h with rfl | ⟨hlow, -⟩
  · exact .inl rfl
  · exact .inr hlow

/-- The case statement of R105 on the two bytes at PC, arm by arm: the next state of the instruction
they decode to, as numbers. -/
theorem pseudoStep_eq_nextState {s : State} {opcode operand : Byte}
    (hop : s.readMem s.pc = opcode) (hoperand : s.readMem (s.pc + 1) = operand) :
    pseudoStep s.addrMode s.cells s.registers =
      ((nextState (decodeFetched opcode operand) s).cells,
        (nextState (decodeFetched opcode operand) s).registers) := by
  have hfetch : s.cells s.pc.toNat = opcode.toNat := by rw [State.cells_toNat, hop]
  have hnext : s.cells ((s.pc.toNat + 1) % 256) = operand.toNat := by
    rw [State.cells_pc_add_one, hoperand]
  simp only [pseudoStep, State.registers, hfetch, hnext, pseudoEA_toNat, State.cells_toNat]
  rcases decodeFetched_cases opcode operand with ⟨rfl, hi⟩ | ⟨rfl, hi⟩ | ⟨rfl, hi⟩ | ⟨rfl, hi⟩ |
    ⟨rfl, hi⟩ | ⟨rfl, hi⟩ | ⟨rfl, hi⟩ | ⟨rfl, hi⟩ | ⟨rfl, hi⟩ | ⟨hundefined, hi⟩ <;> rw [hi]
  · simp [nextState, State.loadOperand]
  · simp [nextState, State.cells_storeOperand]
  · simp [nextState, State.loadOperand]
  · simp [nextState, State.cells_storeOperand]
  · simp [nextState, aluAdd_toNat, zeroFlag_eq_decide] <;> rfl
  · simp [nextState, aluSub_toNat, zeroFlag_eq_decide] <;> rfl
  · simp [nextState]
  · cases hz : s.z <;> simp [nextState, hz]
  · simp [nextState]
  · have harms : ∀ k, 1 ≤ k → k ≤ 8 → opcode.toNat ≠ k := by
      have hvalue := toNat_not_numbered_of_not_defined hundefined
      omega
    simp [nextState, harms]

/-- Settles O14: the pseudocode on the fetched bytes is the fetched instruction's next state, which
the step answers. -/
theorem stepRefinesThePseudocode : Obligations.StepRefinesThePseudocode := by
  unfold Obligations.StepRefinesThePseudocode
  intro s hrun
  exact ⟨_, step_running s hrun, nextState_addrMode _ s, pseudoStep_eq_nextState rfl rfl⟩

end Sys2Proof.Machine
end
